-- ==== Sys2Proof/Word.lean ====
section
/-!
DEFINITION. The two word types of the machine: the byte, which every memory cell, opcode, immediate and the register `W`
is (spec/10_state.md R26, R30; spec/20_memory.md R41), and the 16-bit address operand (spec/30_encoding.md R74).
The program counter is no word: it is an integer (spec/10_state.md R21).
-/

namespace Sys2Proof

/-- A byte, `0 .. 255` (R41). -/
abbrev Byte := BitVec 8

/-- A 16-bit address operand, `0 .. 65535` (R74). -/
abbrev Addr := BitVec 16

end Sys2Proof
end

