-- ==== Sys2Proof/Config.lean ====
section
/-!
DEFINITION. What is fixed for one engine and never changes as it runs: its variant and the model parameter `BEQ_FIXED`
(spec/00_scope.md R2, R6), and the parameters R6 reads from the variant. The spec leaves no value of this hardware open
(spec/93_implementation_defined.md: no behaviour is `any value`), so there is no free value here.
-/

namespace Sys2Proof

/-- The two engine variants (R2). -/
inductive Variant where
  | a
  | b
  deriving DecidableEq, Repr

/-- The configuration of one engine: R20 counts it as configuration, not state. `beqFixed` is the parameter `BEQ_FIXED`,
`false` for this hardware (R6, R136; log 5). -/
structure Config where
  variant : Variant
  beqFixed : Bool
  deriving DecidableEq, Repr

/-- `MEM_SIZE`: bytes of memory (R6). -/
def Variant.memSize : Variant → Nat
  | .a => 1024
  | .b => 1536

/-- `VIDEO_SIZE`: bytes of video region (R6); VariantA has none. -/
def Variant.videoSize : Variant → Nat
  | .a => 0
  | .b => 1000

/-- `VIDEO_ROWS` (R6, R54). -/
def Config.videoRows : Nat := 25

/-- `VIDEO_COLS` (R6, R54). -/
def Config.videoCols : Nat := 40

/-- `PC_INIT`: the program counter after reset, in both variants (R6). -/
def Config.pcInit : Int := 0

/-- `W_INIT`: the working register after reset (R6). -/
def Config.wInit : Byte := 0

/-- The configuration `State.reset` has: VariantA (DESIGN CHOICE, log 1) with the hardware's legacy B.BEQ (R6). -/
def Config.hardwareA : Config := { variant := .a, beqFixed := false }

/-- VariantB with the hardware's legacy B.BEQ (R6). -/
def Config.hardwareB : Config := { variant := .b, beqFixed := false }

end Sys2Proof
end

