-- ==== Sys2Proof/Machine/State.lean ====
section
/-!
DEFINITION. The state of one engine as plain data (spec/10_state.md R20 to R33), the reasons a step stops, and the state after reset
(R32). The configuration stands in the state as a constant so that one model holds both variants (log 1); `outputs` and `pending` are
the model's record of what leaves the engine and of what the host still asks of it (logs 4, 14).
-/

namespace Sys2Proof.Machine

open Sys2Proof

/-- `ExecutionSignal`: the three outcomes of a run (spec/60_exceptions.md R150). -/
inductive Signal where
  | halted
  | outOfBounds
  | invalidOpcode
  deriving DecidableEq, Repr

/-- Whether a run is in progress (spec/20_memory.md R57, spec/40_fetch_execute.md R97, R100). -/
inductive Phase where
  | idle
  | running
  deriving DecidableEq, Repr

/-- One line of a save (spec/00_scope.md R14, R15), after its text has been parsed (log 19). -/
inductive SaveLine where
  /-- `PC=<decimal>`. -/
  | pc (value : Int)
  /-- `W=<decimal>` (VariantB only). -/
  | w (value : Byte)
  /-- `<address>=<value>`. -/
  | cell (address : Int) (value : Byte)
  /-- A line that fails to parse an expected integer (`MalformedSaveLine`, R156); a save never holds one. -/
  | malformed
  deriving DecidableEq, Repr

/-- An operation of the host (spec/40_fetch_execute.md R90, R92). -/
inductive HostOp where
  | reset
  | fetchExecute (start : Option Int)
  | peek (address : Int)
  | poke (address : Int) (value : Byte)
  | statusText
  | serializeState
  | deserializeState (lines : List SaveLine)
  deriving DecidableEq, Repr

/-- Something the host or the display receives from the engine (spec/10_state.md R33). -/
inductive Output where
  /-- The signal a run returns (R150). -/
  | signal (value : Signal)
  /-- A redraw event with its 1000-byte snapshot (R53). -/
  | redraw (snapshot : List Byte)
  /-- The byte `peek` returns (R94). -/
  | peeked (value : Byte)
  /-- What `statusText` shows: `pc`, and `W` where present (R17); not its text (log 20). -/
  | status (pc : Int) (w : Option Byte)
  /-- The lines `serializeState` emits (R14). -/
  | saved (lines : List SaveLine)
  /-- What `deserializeState` returns: 0, or the 1-based number of the first bad line (R15). -/
  | restored (code : Nat)
  deriving DecidableEq, Repr

/-- The state of one engine. -/
structure State where
  /-- The engine's constant configuration (R6, R20). -/
  config : Config
  /-- Whether the memory has been allocated (R31). -/
  allocated : Bool
  /-- Whether a run is in progress (R57). -/
  phase : Phase
  /-- The program counter (R21). -/
  pc : Int
  /-- The working register of VariantB (R26); VariantA has none and the field stays 0 there (log 17). -/
  w : Byte
  /-- The memory (R30): its non-zero cells in rising order of address. -/
  mem : List Host.Cell
  /-- What has left the engine, oldest first (R33). -/
  outputs : List Output
  /-- The host's operations not yet begun, next first (R90). -/
  pending : List HostOp
  deriving DecidableEq, Repr

/-- Faults. The hardware has none of its own (R150: the three signals are values a run returns, modelled as next states). -/
inductive Fault where
  /-- Raised by `step` alone, in a run on an engine whose memory was never allocated; no operation begins such a run
  (R31, R183, D8). Safe: the model stops where the spec gives no meaning. -/
  | noMemory
  deriving DecidableEq, Repr

/-- Refusals. -/
inductive Refusal where
  /-- Raised by an arm of `exec` for an instruction without a meaning yet. No arm raises it. Safe. -/
  | notModelled (mnemonic : String)
  /-- Raised by a host operation other than `reset` before the first `reset` (R91, R183, D8, U4). Safe: the spec gives it no meaning. -/
  | beforeReset
  /-- Raised by `deserializeState` at a `W` line on VariantA, which the spec leaves unstated (R15, N16). Safe. -/
  | saveLineWOnVariantA
  deriving DecidableEq, Repr

/-- The state of an engine of configuration `cfg` right after `reset` (R32, R180), with nothing asked of it yet. -/
def State.resetOf (cfg : Config) : State where
  config := cfg
  allocated := true
  phase := .idle
  pc := Config.pcInit
  w := Config.wInit
  mem := []
  outputs := []
  pending := []

/-- The machine right after reset: VariantA (log 1). -/
def State.reset : State := State.resetOf Config.hardwareA

end Sys2Proof.Machine
end

