-- ==== Sys2Proof/Machine/Memory.lean ====
section
/-!
DEFINITION. The memory's cells as a canonical list (spec/10_state.md R30, spec/20_memory.md R40, R41): addresses strictly rising, no cell
equal to what an unlisted address reads as. Bounds and side effects are in Machine/Ops.lean.
-/

namespace Sys2Proof.Machine

open Sys2Proof

/-- What a cell that is not listed holds: 0, the contents `reset` gives every cell (R30, R32, R180; log 21). -/
def Memory.unlisted : Byte := 0

/-- The byte held at cell `a`. -/
def Memory.get : List Host.Cell → Nat → Byte
  | [], _ => Memory.unlisted
  | (b, v) :: rest, a => if a = b then v else Memory.get rest a

/-- Store `v` at cell `a`, keeping the canonical form. -/
def Memory.set (a : Nat) (v : Byte) : List Host.Cell → List Host.Cell
  | [] => if v = Memory.unlisted then [] else [(a, v)]
  | (b, u) :: rest =>
    if a < b then
      if v = Memory.unlisted then (b, u) :: rest else (a, v) :: (b, u) :: rest
    else if a = b then
      if v = Memory.unlisted then rest else (a, v) :: rest
    else (b, u) :: Memory.set a v rest

/-- The cells rise strictly from address `lo` on and none holds the unlisted byte. -/
def Memory.wfFrom (lo : Nat) : List Host.Cell → Bool
  | [] => true
  | (a, v) :: rest => decide (lo ≤ a) && decide (v ≠ Memory.unlisted) && Memory.wfFrom (a + 1) rest

/-- The canonical form. -/
def Memory.wf (m : List Host.Cell) : Bool := Memory.wfFrom 0 m

/-- Every listed cell lies below `n`. -/
def Memory.below (n : Nat) (m : List Host.Cell) : Bool := m.all fun c => decide (c.1 < n)

/-- The bytes of `n` cells from cell `a` on. -/
def Memory.slice (m : List Host.Cell) : Nat → Nat → List Byte
  | _, 0 => []
  | a, n + 1 => Memory.get m a :: Memory.slice m (a + 1) n

/-- Store bytes one after another from cell `a` on, dropping those at or beyond `n`. -/
def Memory.setBytes (n : Nat) : Nat → List Byte → List Host.Cell → List Host.Cell
  | _, [], m => m
  | a, v :: vs, m => Memory.setBytes n (a + 1) vs (if a < n then Memory.set a v m else m)

end Sys2Proof.Machine
end

