-- ==== Sys2Proof/Machine/Ops.lean ====
section
/-!
DEFINITION. The named operations over memory, registers, runs and outputs that every meaning is written with: the two memory
primitives (spec/20_memory.md R42, R43) with the redraw (R52, R53), register writes, raising a signal and beginning a run
(spec/40_fetch_execute.md R93, R100; spec/60_exceptions.md R157), the guard of both families' meanings
(spec/30_encoding.md R78), and reset (spec/70_reset_and_hazards.md R180).
-/

namespace Sys2Proof.Machine

open Sys2Proof

/-- What a step or a meaning answers. -/
abbrev Result := Host.Outcome State Fault Refusal

/-- `MEM_SIZE` of this engine (R6). -/
def memSize (s : State) : Nat := s.config.variant.memSize

/-- `address` names a cell: `0 <= address < MEM_SIZE` (R40). -/
abbrev InRange (address : Int) (s : State) : Prop := 0 ≤ address ∧ address < (memSize s : Int)

/-- `address` names a cell of the video region: VariantB below 1000 (R50, R52). -/
abbrev InVideo (address : Int) (s : State) : Prop := 0 ≤ address ∧ address < (s.config.variant.videoSize : Int)

/-- `MemRead(address, 1)` (R42). -/
def memRead (address : Int) (s : State) : Byte :=
  if InRange address s then Memory.get s.mem address.toNat else 0

/-- Append an output to the history (R33). -/
def emit (o : Output) (s : State) : State := { s with outputs := s.outputs ++ [o] }

/-- The 1000 bytes `mem[0] .. mem[999]` (R53). -/
def snapshot (s : State) : List Byte := Memory.slice s.mem 0 Variant.b.videoSize

/-- `MemWrite(address, 1, v)` (R43), with the redraw event of a write into the video region after the cell is updated (R52, R53). -/
def memWrite (address : Int) (v : Byte) (s : State) : State :=
  if InRange address s then
    let s' := { s with mem := Memory.set address.toNat v s.mem }
    if InVideo address s then emit (.redraw (snapshot s')) s' else s'
  else s

/-- `pc <- target`: unchecked (R24). -/
def setPc (target : Int) (s : State) : State := { s with pc := target }

/-- `pc <- pc + n` (R23). -/
def advance (n : Int) (s : State) : State := setPc (s.pc + n) s

/-- `W <- v` (R26). -/
def setW (v : Byte) (s : State) : State := { s with w := v }

/-- `raise sig`: the run ends here, the engine is idle again and the signal is returned to the host; nothing is saved and no other state
changes (R100, R157). -/
def raise (sig : Signal) (s : State) : State := emit (.signal sig) { s with phase := .idle }

/-- On an engine of variant `v` the effect; on the other, whose map lacks the opcode, `InvalidOpcode` with nothing else changed (R78, R79;
log 18). The halts do not go through it: their byte is in both maps. -/
def onVariant (v : Variant) (effect : State → State) (s : State) : Result :=
  .next (if s.config.variant = v then effect s else raise .invalidOpcode s)

/-- `fetchExecute(start)`: set `pc` if `start` is given, unchecked, and enter the loop (R93, R97). The only way execution resumes after
a signal (R161). -/
def beginRun (start : Option Int) (s : State) : State := { s with pc := start.getD s.pc, phase := .running }

/-- `reset()` (R180): allocate, zero-fill without any redraw (R182), `pc` and `W` to their initial values. -/
def resetEngine (s : State) : State :=
  { s with allocated := true, mem := [], pc := Config.pcInit, w := Config.wInit }

/-- An engine just constructed, before its first `reset` (R13, R31, R183): only `reset` has a meaning on it. Its other values are
unobservable, since every operation before `reset` is refused and `reset` sets them (log 2). -/
def State.constructed (cfg : Config) : State := { State.resetOf cfg with allocated := false }

/-- The 2-bit code of a signal on a result port (R154, D6); 3 is never produced. -/
def signalCode : Signal → BitVec 2
  | .halted => 0
  | .outOfBounds => 1
  | .invalidOpcode => 2

end Sys2Proof.Machine
end

