-- ==== Sys2Proof/Machine/HostOps.lean ====
section
/-!
DEFINITION. The host's operations on an idle engine (spec/40_fetch_execute.md R90 to R96, spec/70_reset_and_hazards.md R180), and at their
boundary the host-side software built on them: `statusText`, `serializeState`, `deserializeState` (spec/00_scope.md R14 to R17; logs 19, 20).
-/

namespace Sys2Proof.Machine

open Sys2Proof

/-- What `statusText` shows of the working register: present in VariantB only (R17). -/
def wView (s : State) : Option Byte :=
  match s.config.variant with
  | .a => none
  | .b => some s.w

/-- The cell lines of a save: the non-zero cells in ascending order of address (R14), which is what the canonical list of the memory
lists (Memory.wf, Memory.below). -/
def cellLines (s : State) : List SaveLine := s.mem.map fun c => .cell (c.1 : Int) c.2

/-- The lines `serializeState` emits (R14): `PC`, then `W` for VariantB only, then the cells. -/
def saveLines (s : State) : List SaveLine :=
  match s.config.variant with
  | .a => .pc s.pc :: cellLines s
  | .b => .pc s.pc :: .w s.w :: cellLines s

/-- `deserializeState` from line number `n` on (R15): each line takes effect in turn, memory lines through `poke`; the first bad line ends the
restore with its number, and success returns 0. Two points are stated nowhere (N16) and are the model's choice (DESIGN CHOICE, log 19): a `W`
line on VariantA is refused, and a cell line whose address lies outside memory is dropped as `poke` drops it (R95) and the restore goes on. -/
def restoreFrom (n : Nat) : List SaveLine → State → Result
  | [], s => .next (emit (.restored 0) s)
  | .pc v :: rest, s => restoreFrom (n + 1) rest (setPc v s)
  | .w v :: rest, s =>
    match s.config.variant with
    | .a => .refused .saveLineWOnVariantA
    | .b => restoreFrom (n + 1) rest (setW v s)
  | .cell a v :: rest, s => restoreFrom (n + 1) rest (memWrite a v s)
  | .malformed :: _, s => .next (emit (.restored n) s)

/-- A host operation on an engine whose memory is allocated. -/
def hostOp (op : HostOp) (s : State) : Result :=
  match op with
  | .reset => .next (resetEngine s)
  | .fetchExecute start => .next (beginRun start s)
  | .peek address => .next (emit (.peeked (memRead address s)) s)
  | .poke address value => .next (memWrite address value s)
  | .statusText => .next (emit (.status s.pc (wView s)) s)
  | .serializeState => .next (emit (.saved (saveLines s)) s)
  | .deserializeState lines => restoreFrom 1 lines s

/-- Whether the operation is `reset`, the one operation with a meaning before the first `reset` (R91, R183). -/
def isReset : HostOp → Bool
  | .reset => true
  | .fetchExecute _ | .peek _ | .poke _ _ | .statusText | .serializeState | .deserializeState _ => false

/-- An idle engine performs the host's next operation whole; with none it stays as it is (R90, R169). -/
def idleStep (s : State) : Result :=
  match s.pending with
  | [] => .next s
  | op :: rest =>
    if s.allocated || isReset op then hostOp op { s with pending := rest } else .refused .beforeReset

end Sys2Proof.Machine
end

