-- ==== Sys2Proof/Machine/Flags.lean ====
section
/-!
DEFINITION. The arithmetic units of the two variants (spec/41_variant_a.md R126, spec/42_variant_b.md R139): 8-bit add, subtract and the
equality comparator. There are no flags, condition codes or carries in either variant (spec/10_state.md R27), so nothing else is computed.
-/

namespace Sys2Proof.Machine

open Sys2Proof

/-- `(x + y) mod 256` (R126, R139). -/
def aluAdd (x y : Byte) : Byte := BitVec.ofNat 8 (x.toNat + y.toNat)

/-- `(x - y) mod 256` (R126, R139). -/
def aluSub (x y : Byte) : Byte := BitVec.ofInt 8 ((x.toNat : Int) - (y.toNat : Int))

/-- Equality of all 8 bits (R139). -/
def aluEq (x y : Byte) : Bool := x == y

end Sys2Proof.Machine
end

