-- ==== Sys2Proof/Syntax.lean ====
section
/-!
DEFINITION. The instructions: one constructor for each row of spec/opcode_table.json (spec/30_encoding.md R76, R77).
Operands are the assembled fields of R73 to R75; their types hold exactly the values R79 calls legal, which is every value.
-/

namespace Sys2Proof

/-- The twelve instructions of the two variants. -/
inductive Instr where
  /-- A.ADDM imm, addr (R120). -/
  | aAddm (imm : Byte) (addr : Addr)
  /-- A.SUBM imm, addr (R121). -/
  | aSubm (imm : Byte) (addr : Addr)
  /-- A.JMP addr (R122). -/
  | aJmp (addr : Addr)
  /-- A.BRA off: the offset byte as encoded (R123, R75). -/
  | aBra (off : Byte)
  /-- A.HLT (R124). -/
  | aHlt
  /-- B.LDI imm (R130). -/
  | bLdi (imm : Byte)
  /-- B.STW addr (R131). -/
  | bStw (addr : Addr)
  /-- B.ADDI imm (R132). -/
  | bAddi (imm : Byte)
  /-- B.SUBI imm (R133). -/
  | bSubi (imm : Byte)
  /-- B.JMP addr (R134). -/
  | bJmp (addr : Addr)
  /-- B.BEQ cmpVal, addr (R135, R136). -/
  | bBeq (cmpVal : Byte) (addr : Addr)
  /-- B.HLT (R137). -/
  | bHlt
  deriving DecidableEq, Repr

end Sys2Proof
end

