-- ==== Sys2Proof/WellFormed.lean ====
section
/-!
DEFINITION. When an instruction is well formed: it belongs to the instruction set of the engine's variant (spec/30_encoding.md
R76 to R78). No operand value is illegal (R79) and the field types hold exactly the encodable values, so nothing else is checked.
-/

namespace Sys2Proof

/-- The variant whose opcode map holds the instruction (R76, R77). -/
def Instr.variant : Instr → Variant
  | .aAddm _ _ => .a
  | .aSubm _ _ => .a
  | .aJmp _ => .a
  | .aBra _ => .a
  | .aHlt => .a
  | .bLdi _ => .b
  | .bStw _ => .b
  | .bAddi _ => .b
  | .bSubi _ => .b
  | .bJmp _ => .b
  | .bBeq _ _ => .b
  | .bHlt => .b

/-- `i` is an instruction of variant `v`. -/
abbrev Instr.WellFormed (v : Variant) (i : Instr) : Prop := i.variant = v

end Sys2Proof
end

