-- ==== Sys2Proof/Decode.lean ====
section
/-!
DEFINITION. The decoder and the encoder of both variants (spec/30_encoding.md R70 to R79), and the reading of one
opcode-table row's bits for the host. The decoder is total on any list of bytes and rejects by name.
-/

namespace Sys2Proof

/-- Why a list of bytes is no instruction. -/
inductive Reject where
  /-- The list ends before the instruction does; never on the four bytes a fetch reads. -/
  | truncated
  /-- Byte 0 is not in the variant's opcode map (R79). -/
  | invalidOpcode (op : Byte)
  deriving DecidableEq, Repr

/-- The halt sentinel of both variants (R6, R76, R77). -/
def haltOpcode : Byte := 0xFF

/-- `(hi << 8) | lo`: the big-endian assembly of an address operand (R45, R74). -/
def addr16 (hi lo : Byte) : Addr := hi ++ lo

/-- `addr[15:8]` (R83). -/
def addrHi (a : Addr) : Byte := a.extractLsb' 8 8

/-- `addr[7:0]` (R83). -/
def addrLo (a : Addr) : Byte := a.extractLsb' 0 8

/-- Formats `I` and `R` (R71): one operand byte. -/
def takeByte (mk : Byte → Instr) : List Byte → Except Reject (Instr × List Byte)
  | x :: rest => .ok (mk x, rest)
  | [] => .error .truncated

/-- Format `A` (R71): an address operand. -/
def takeAddr (mk : Addr → Instr) : List Byte → Except Reject (Instr × List Byte)
  | hi :: lo :: rest => .ok (mk (addr16 hi lo), rest)
  | _ => .error .truncated

/-- Formats `IA` and `CA` (R71): a byte, then an address operand. -/
def takeByteAddr (mk : Byte → Addr → Instr) : List Byte → Except Reject (Instr × List Byte)
  | x :: hi :: lo :: rest => .ok (mk x (addr16 hi lo), rest)
  | _ => .error .truncated

/-- The halt instruction of a variant (R124, R137). -/
def haltOf : Variant → Instr
  | .a => .aHlt
  | .b => .bHlt

/-- The VariantA opcode map (R76), after the halt test. -/
def decodeA (op : Byte) (rest : List Byte) : Except Reject (Instr × List Byte) :=
  if op = 0x0A then takeByteAddr .aAddm rest
  else if op = 0x13 then takeByteAddr .aSubm rest
  else if op = 0x16 then takeAddr .aJmp rest
  else if op = 0x17 then takeByte .aBra rest
  else .error (.invalidOpcode op)

/-- The VariantB opcode map (R77), after the halt test. -/
def decodeB (op : Byte) (rest : List Byte) : Except Reject (Instr × List Byte) :=
  if op = 0x50 then takeByte .bLdi rest
  else if op = 0x51 then takeAddr .bStw rest
  else if op = 0x5A then takeByte .bAddi rest
  else if op = 0x5B then takeByte .bSubi rest
  else if op = 0x6E then takeAddr .bJmp rest
  else if op = 0x70 then takeByteAddr .bBeq rest
  else .error (.invalidOpcode op)

/-- The decoder: the instruction at the head of `bytes` and the bytes after it. The halt test comes before the table, as R99 orders. -/
def decode (v : Variant) (bytes : List Byte) : Except Reject (Instr × List Byte) :=
  match bytes with
  | [] => .error .truncated
  | op :: rest =>
    if op = haltOpcode then .ok (haltOf v, rest)
    else match v with
      | .a => decodeA op rest
      | .b => decodeB op rest

/-- The encoder (R71, R76, R77): an instruction's bytes in address order. -/
def encode : Instr → List Byte
  | .aAddm imm addr => [0x0A, imm, addrHi addr, addrLo addr]
  | .aSubm imm addr => [0x13, imm, addrHi addr, addrLo addr]
  | .aJmp addr => [0x16, addrHi addr, addrLo addr]
  | .aBra off => [0x17, off]
  | .aHlt => [0xFF]
  | .bLdi imm => [0x50, imm]
  | .bStw addr => [0x51, addrHi addr, addrLo addr]
  | .bAddi imm => [0x5A, imm]
  | .bSubi imm => [0x5B, imm]
  | .bJmp addr => [0x6E, addrHi addr, addrLo addr]
  | .bBeq cmpVal addr => [0x70, cmpVal, addrHi addr, addrLo addr]
  | .bHlt => [0xFF]

/-- The length column of R76 and R77. -/
def Instr.byteLength : Instr → Nat
  | .aAddm _ _ | .aSubm _ _ | .bBeq _ _ => 4
  | .aJmp _ | .bStw _ | .bJmp _ => 3
  | .aBra _ | .bLdi _ | .bAddi _ | .bSubi _ => 2
  | .aHlt | .bHlt => 1

/-- The four bytes, first lowest, of an opcode-table word `w` of `nbits` bits: byte `k` is bits `8k+7 .. 8k`, and every bit at or above
`nbits` is 0. Four bytes are the longest instruction (R70). -/
def tableBytes (nbits w : Nat) : List Byte :=
  let v := w % 2 ^ nbits
  [BitVec.ofNat 8 v, BitVec.ofNat 8 (v / 2 ^ 8), BitVec.ofNat 8 (v / 2 ^ 16), BitVec.ofNat 8 (v / 2 ^ 24)]

/-- The variant whose map has the opcode at the head of `bytes`; `v` itself when its map has it or neither has (the maps share only 0xFF, R78). -/
def variantFor (v : Variant) (bytes : List Byte) : Variant :=
  match decode v bytes with
  | .ok _ => v
  | .error _ =>
    let other := match v with
      | .a => Variant.b
      | .b => Variant.a
    match decode other bytes with
    | .ok _ => other
    | .error _ => v

/-- The instruction the decoder reads from an opcode-table word, by the variant whose map has its opcode. The byte 0xFF, which both maps
have, is read in VariantA, the variant of `State.reset` (log 6). -/
def decodeTableWord (nbits w : Nat) : Option Instr :=
  let bytes := tableBytes nbits w
  match decode (variantFor .a bytes) bytes with
  | .ok (i, _) => some i
  | .error _ => none

end Sys2Proof
end

