-- ==== Sys2Proof/Machine/Operands.lean ====
section
/-!
DEFINITION. The operand forms (spec/30_encoding.md R73 to R75) and the reading of an instruction's bytes
(spec/20_memory.md R45, R58; R81 for bytes beyond the end of memory).
-/

namespace Sys2Proof.Machine

open Sys2Proof

/-- An address operand as the integer `0 .. 65535` it is used as: not extended, scaled or reduced (R74). -/
def addrVal (addr : Addr) : Int := (addr.toNat : Int)

/-- `sext_8(b)`: `b` up to 127, `b - 256` from 128 on (R75; log 16). -/
def sext8 (b : Byte) : Int := if b.toNat ≤ 127 then (b.toNat : Int) else (b.toNat : Int) - 256

/-- `Addr16(a) = (MemRead(a, 1) << 8) | MemRead(a + 1, 1)` (R45). -/
def addr16At (a : Int) (s : State) : Addr := addr16 (memRead a s) (memRead (a + 1) s)

/-- The bytes at `pc`, `pc + 1`, `pc + 2`, `pc + 3`: the longest instruction (R70), each by the bounds-checked read, so that bytes beyond
the end of memory are 0 (R81). An instruction uses as many as it has; reads change nothing (R48), so reading all four cannot be observed
(log 15). -/
def fetchBytes (s : State) : List Byte :=
  [memRead s.pc s, memRead (s.pc + 1) s, memRead (s.pc + 2) s, memRead (s.pc + 3) s]

end Sys2Proof.Machine
end

