-- ==== Sys2Proof/Machine/VariantA.lean ====
section
/-!
DEFINITION. The meanings of VariantA's instructions (spec/41_variant_a.md R120 to R124), each over the shared operations of Machine/Ops.lean.
-/

namespace Sys2Proof.Machine

open Sys2Proof

/-- A read-modify-write of one memory byte, then `pc <- pc + 4` (R120, R121): in range the cell is updated, out of range the read gives 0
and the write is dropped. -/
def updateByte (f : Byte → Byte) (address : Int) (s : State) : State :=
  advance 4 (memWrite address (f (memRead address s)) s)

/-- A.ADDM `imm, addr` (R120). -/
def execAAddm (imm : Byte) (addr : Addr) (s : State) : Result :=
  onVariant .a (updateByte (fun old => aluAdd old imm) (addrVal addr)) s

/-- A.SUBM `imm, addr` (R121). -/
def execASubm (imm : Byte) (addr : Addr) (s : State) : Result :=
  onVariant .a (updateByte (fun old => aluSub old imm) (addrVal addr)) s

/-- A.JMP `addr` (R122): the target is not checked. -/
def execAJmp (addr : Addr) (s : State) : Result := onVariant .a (setPc (addrVal addr)) s

/-- A.BRA `off` (R123): relative to the address of its own opcode byte. -/
def execABra (off : Byte) (s : State) : Result := onVariant .a (advance (sext8 off)) s

/-- A.HLT (R124): `raise Halted`, `pc` and memory unchanged. Its byte 0xFF is the halt of both variants and never an invalid opcode (R78, R99;
log 18), so the variant is not asked. -/
def execAHlt (s : State) : Result := .next (raise .halted s)

end Sys2Proof.Machine
end

