-- ==== Sys2Proof/Machine/VariantB.lean ====
section
/-!
DEFINITION. The meanings of VariantB's instructions (spec/42_variant_b.md R130 to R137).
-/

namespace Sys2Proof.Machine

open Sys2Proof

/-- `W <- v; pc <- pc + 2` (R130, R132, R133). -/
def loadW (v : Byte) (s : State) : State := advance 2 (setW v s)

/-- `MemWrite(address, 1, W); pc <- pc + 3` (R131). -/
def storeW (address : Int) (s : State) : State := advance 3 (memWrite address s.w s)

/-- `W <- (W + imm) mod 256; pc <- pc + 2` (R132). -/
def addToW (imm : Byte) (s : State) : State := loadW (aluAdd s.w imm) s

/-- `W <- (W - imm) mod 256; pc <- pc + 2` (R133). -/
def subFromW (imm : Byte) (s : State) : State := loadW (aluSub s.w imm) s

/-- B.LDI `imm` (R130). -/
def execBLdi (imm : Byte) (s : State) : Result := onVariant .b (loadW imm) s

/-- B.STW `addr` (R131): one redraw when `addr < 1000`, nothing stored when `addr >= 1536`. -/
def execBStw (addr : Addr) (s : State) : Result := onVariant .b (storeW (addrVal addr)) s

/-- B.ADDI `imm` (R132). -/
def execBAddi (imm : Byte) (s : State) : Result := onVariant .b (addToW imm) s

/-- B.SUBI `imm` (R133). -/
def execBSubi (imm : Byte) (s : State) : Result := onVariant .b (subFromW imm) s

/-- B.JMP `addr` (R134): the target is not checked. -/
def execBJmp (addr : Addr) (s : State) : Result := onVariant .b (setPc (addrVal addr)) s

/-- The branch decision of B.BEQ: `pc` is written on both paths (R135). -/
def branchEq (cmpVal : Byte) (target : Int) (s : State) : State :=
  if aluEq cmpVal s.w then setPc target s else advance 4 s

/-- The fall-through into the default arm: unless `BEQ_FIXED`, `InvalidOpcode` after `pc` has been written (R136; log 5). -/
def beqFallThrough (s : State) : State :=
  if s.config.beqFixed then s else raise .invalidOpcode s

/-- The branch decision, then the fall-through (R135, R136). -/
def branchThenFall (cmpVal : Byte) (target : Int) (s : State) : State :=
  beqFallThrough (branchEq cmpVal target s)

/-- B.BEQ `cmpVal, addr` (R135, then R136). -/
def execBBeq (cmpVal : Byte) (addr : Addr) (s : State) : Result :=
  onVariant .b (branchThenFall cmpVal (addrVal addr)) s

/-- B.HLT (R137): `raise Halted`, `pc`, `W` and memory unchanged, whichever variant meets its byte 0xFF (R78, R99; log 18). -/
def execBHlt (s : State) : Result := .next (raise .halted s)

end Sys2Proof.Machine
end

