-- ==== Sys2Proof/Machine/Dispatch.lean ====
section
/-!
DEFINITION. One arm per instruction: the dispatch of spec/40_fetch_execute.md R98.
-/

namespace Sys2Proof.Machine

open Sys2Proof

def exec (i : Instr) (s : State) : Host.Outcome State Fault Refusal :=
  match i with
  -- VariantA (spec/41_variant_a.md)
  | .aAddm imm addr => Sys2Proof.Machine.execAAddm imm addr s
  | .aSubm imm addr => Sys2Proof.Machine.execASubm imm addr s
  | .aJmp addr => Sys2Proof.Machine.execAJmp addr s
  | .aBra off => Sys2Proof.Machine.execABra off s
  | .aHlt => Sys2Proof.Machine.execAHlt s
  -- VariantB (spec/42_variant_b.md)
  | .bLdi imm => Sys2Proof.Machine.execBLdi imm s
  | .bStw addr => Sys2Proof.Machine.execBStw addr s
  | .bAddi imm => Sys2Proof.Machine.execBAddi imm s
  | .bSubi imm => Sys2Proof.Machine.execBSubi imm s
  | .bJmp addr => Sys2Proof.Machine.execBJmp addr s
  | .bBeq cmpVal addr => Sys2Proof.Machine.execBBeq cmpVal addr s
  | .bHlt => Sys2Proof.Machine.execBHlt s

end Sys2Proof.Machine
end

