-- ==== Sys2Proof/Machine/Loop.lean ====
section
/-!
DEFINITION. One iteration of the fetch-decode-execute loop (spec/40_fetch_execute.md R98, R99).
-/

namespace Sys2Proof.Machine

open Sys2Proof

/-- `Step()` (R98): the bounds test, then the halt test and the table (both in the decoder, in that order), then the instruction. A negative
`pc` passes the bounds test and reads the invalid opcode 0 (R24, R153; log 8). -/
def loopStep (s : State) : Result :=
  if (memSize s : Int) ≤ s.pc then .next (raise .outOfBounds s)
  else match decode s.config.variant (fetchBytes s) with
    | .ok (i, _) => exec i s
    | .error _ => .next (raise .invalidOpcode s)

/-- One iteration of a run; a run on an engine without memory has no meaning (R183). -/
def runningStep (s : State) : Result := if s.allocated then loopStep s else .fault .noMemory

end Sys2Proof.Machine
end

