-- ==== Sys2Proof/Machine/Step.lean ====
section
/-!
DEFINITION. One step of the machine: an iteration of the run in progress, or, between runs, the host's next operation
(spec/20_memory.md R57, spec/40_fetch_execute.md R97); and the placing of one instruction where the next step fetches it.
-/

namespace Sys2Proof.Machine

open Sys2Proof

/-- One step. While a run is in progress the host has no move (R57). -/
def step (s : State) : Host.Outcome State Fault Refusal :=
  match s.phase with
  | .running => runningStep s
  | .idle => idleStep s

/-- `s` with the instruction of an opcode-table word stored at `pc` and a run in progress, so that the next step fetches it (log 6). An
engine's variant never changes (R2): where only the other variant's map has the opcode, `s` gives way to an engine of that variant just reset. -/
def State.withFetchWord (s : State) (nbits w : Nat) : State :=
  let bytes := tableBytes nbits w
  let v := variantFor s.config.variant bytes
  let t := if v = s.config.variant then s else State.resetOf { s.config with variant := v }
  { t with
    phase := .running
    mem := if 0 ≤ t.pc then Memory.setBytes (memSize t) t.pc.toNat bytes t.mem else t.mem }

end Sys2Proof.Machine
end

