-- ==== Sys2Proof/Machine/Arbiter.lean ====
section
/-!
DEFINITION. The memory arbiter as the sequence of accesses it grants in one step (spec/20_memory.md R56 to R58). The source has no such
component and it holds no state (R56); this is the list of grants, in order, for the very step `step` takes (log 15).
-/

namespace Sys2Proof.Machine

open Sys2Proof

/-- One granted access: the six kinds of requester of R56, the host's and the bulk ones split by direction. -/
inductive Grant where
  | opcodeFetch (address : Int)
  | operandFetch (address : Int)
  | dataRead (address : Int)
  | dataWrite (address : Int)
  | hostRead (address : Int)
  | hostWrite (address : Int)
  /-- The zero-fill of `reset`, which bypasses the primitives. -/
  | zeroFill
  /-- The display's read of the 1000-byte snapshot, which bypasses the primitives. -/
  | snapshotRead
  deriving DecidableEq, Repr

/-- The place of an access in the order of R58; host and bulk accesses of `reset` and `serializeState` do not occur in a run. -/
def Grant.rank : Grant → Nat
  | .opcodeFetch _ => 0
  | .operandFetch _ => 1
  | .dataRead _ => 2
  | .dataWrite _ => 3
  | .snapshotRead => 4
  | .hostRead _ => 5
  | .hostWrite _ => 5
  | .zeroFill => 5

/-- Whether the engine, not the host, asked for the access; a snapshot read belongs to the write that caused it. -/
def Grant.byEngine : Grant → Bool
  | .opcodeFetch _ | .operandFetch _ | .dataRead _ | .dataWrite _ => true
  | .hostRead _ | .hostWrite _ | .zeroFill | .snapshotRead => false

/-- A write, and the snapshot read of the redraw it causes (R52, R57). -/
def writeGrants (write : Int → Grant) (address : Int) (s : State) : List Grant :=
  if InVideo address s then [write address, .snapshotRead] else [write address]

/-- `n` operand reads from `address` on, ascending (R58). -/
def operandGrants (address : Int) : Nat → List Grant
  | 0 => []
  | n + 1 => .operandFetch address :: operandGrants (address + 1) n

/-- The data accesses of an instruction (R47, R58). -/
def dataGrants (i : Instr) (s : State) : List Grant :=
  match i with
  | .aAddm _ addr => .dataRead (addrVal addr) :: writeGrants .dataWrite (addrVal addr) s
  | .aSubm _ addr => .dataRead (addrVal addr) :: writeGrants .dataWrite (addrVal addr) s
  | .bStw addr => writeGrants .dataWrite (addrVal addr) s
  | .aJmp _ | .aBra _ | .aHlt | .bLdi _ | .bAddi _ | .bSubi _ | .bJmp _ | .bBeq _ _ | .bHlt => []

/-- The accesses of one iteration of a run (R58): the opcode read, the operand reads, the data read, the data write. -/
def loopGrants (s : State) : List Grant :=
  .opcodeFetch s.pc ::
    if (memSize s : Int) ≤ s.pc then []
    else match decode s.config.variant (fetchBytes s) with
      | .ok (i, _) => operandGrants (s.pc + 1) (i.byteLength - 1) ++ dataGrants i s
      | .error _ => []

/-- The writes of a restore, up to the line that ends it (R15). -/
def restoreGrants : List SaveLine → State → List Grant
  | [], _ => []
  | .pc _ :: rest, s => restoreGrants rest s
  | .w _ :: rest, s =>
    match s.config.variant with
    | .a => []
    | .b => restoreGrants rest s
  | .cell a _ :: rest, s => writeGrants .hostWrite a s ++ restoreGrants rest s
  | .malformed :: _, _ => []

/-- `n` host reads from `address` on, ascending: a save looks at every cell (R14). -/
def hostReadGrants (address : Int) : Nat → List Grant
  | 0 => []
  | n + 1 => .hostRead address :: hostReadGrants (address + 1) n

/-- The accesses of a host operation (R56). -/
def hostGrants (op : HostOp) (s : State) : List Grant :=
  match op with
  | .reset => [.zeroFill]
  | .fetchExecute _ => []
  | .peek address => [.hostRead address]
  | .poke address _ => writeGrants .hostWrite address s
  | .statusText => []
  | .serializeState => hostReadGrants 0 (memSize s)
  | .deserializeState lines => restoreGrants lines s

/-- The accesses the arbiter grants in the next step, in order; none where the step has no meaning. -/
def stepGrants (s : State) : List Grant :=
  match s.phase with
  | .running => if s.allocated then loopGrants s else []
  | .idle =>
    match s.pending with
    | [] => []
    | op :: _ => if s.allocated || isReset op then hostGrants op s else []

end Sys2Proof.Machine
end

