-- ==== Sys2Proof/Machine/Display.lean ====
section
/-!
DEFINITION. The display's reading of a redraw snapshot (spec/20_memory.md R54): 25 rows of 40 columns, row-major. The renderer is
external; no step calls this, and no state depends on it (log 14).
-/

namespace Sys2Proof.Machine

open Sys2Proof

/-- The character code a byte renders as: below 0x20 a blank, the space 0x20 (R54, D10; log 14), else itself. -/
def glyph (b : Byte) : Byte := if b.toNat < 0x20 then 0x20 else b

/-- The index of the cell at row `r`, column `c`: `r * 40 + c` (R54). -/
def cellIndex (r c : Nat) : Nat := r * Config.videoCols + c

/-- The character at row `r`, column `c` of a snapshot. -/
def screenCell (snap : List Byte) (r c : Nat) : Byte := glyph (snap.getD (cellIndex r c) 0)

/-- The whole screen, row by row. -/
def screen (snap : List Byte) : List (List Byte) :=
  (List.range Config.videoRows).map fun r => (List.range Config.videoCols).map fun c => screenCell snap r c

end Sys2Proof.Machine
end

