-- ==== Sys2Proof/Machine/Run.lean ====
section
/-!
DEFINITION. A whole run under fuel (spec/40_fetch_execute.md R97, R101, R105): runner machinery, not hardware. Exhausted fuel is "no result",
never a signal (log 23).
-/

namespace Sys2Proof.Machine

open Sys2Proof

/-- What a run under fuel answers. -/
inductive RunResult where
  /-- The run ended; its signal is the last output of the state. -/
  | ended (s : State)
  /-- The fuel ran out after the last complete step: no result (R101, U1). -/
  | noResult (s : State)
  /-- A step stopped by a fault or a refusal. -/
  | stopped
  deriving DecidableEq, Repr

/-- Steps of a run, at most `fuel` of them, until the engine is idle (R97). -/
def runFuel : Nat → State → RunResult
  | 0, s => .noResult s
  | n + 1, s =>
    match step s with
    | .next t =>
      match t.phase with
      | .idle => .ended t
      | .running => runFuel n t
    | .fault _ => .stopped
    | .refused _ => .stopped

end Sys2Proof.Machine
end

