-- ==== Sys2Proof/Safety.lean ====
section
/-!
DEFINITION. What counts as a good state and what the claims about runs speak of: the machine's invariant, the range of `pc`, and
the signals and redraw events of an output history.
-/

namespace Sys2Proof.Machine

open Sys2Proof

/-- The invariant of the machine, kept by every step and true at reset. -/
structure State.Inv (s : State) : Prop where
  /-- The memory is in its canonical form. -/
  memWf : Memory.wf s.mem = true
  /-- No cell lies outside the address space: the memory never grows (R30, R44). -/
  memBelow : Memory.below (memSize s) s.mem = true
  /-- A run is only ever in progress on an engine with memory (R31, R91). -/
  runAllocated : s.phase = .running → s.allocated = true
  /-- VariantA has no working register (R26). -/
  noWOnA : s.config.variant = .a → s.w = 0
  /-- VariantA raises no redraw (R55). -/
  noRedrawOnA : s.config.variant = .a → ∀ snap, Output.redraw snap ∉ s.outputs
  /-- Every redraw event carries 1000 bytes (R53). -/
  redrawSize : ∀ snap, Output.redraw snap ∈ s.outputs → snap.length = 1000

/-- The range a program can drive `pc` into (R25). -/
def State.PcInProgramRange (s : State) : Prop := -128 ≤ s.pc ∧ s.pc ≤ 65535

/-- The signals in an output history, oldest first. -/
def signalsOf : List Output → List Signal
  | [] => []
  | .signal v :: rest => v :: signalsOf rest
  | .redraw _ :: rest => signalsOf rest
  | .peeked _ :: rest => signalsOf rest
  | .status _ _ :: rest => signalsOf rest
  | .saved _ :: rest => signalsOf rest
  | .restored _ :: rest => signalsOf rest

/-- The snapshots of the redraw events in an output history, oldest first. -/
def redrawsOf : List Output → List (List Byte)
  | [] => []
  | .redraw v :: rest => v :: redrawsOf rest
  | .signal _ :: rest => redrawsOf rest
  | .peeked _ :: rest => redrawsOf rest
  | .status _ _ :: rest => redrawsOf rest
  | .saved _ :: rest => redrawsOf rest
  | .restored _ :: rest => redrawsOf rest

/-- The opcode bytes of a variant's map (R76, R77), the halt sentinel among them. -/
def opcodesOf : Variant → List Byte
  | .a => [0x0A, 0x13, 0x16, 0x17, 0xFF]
  | .b => [0x50, 0x51, 0x5A, 0x5B, 0x6E, 0x70, 0xFF]

/-- A run is in progress on an engine of variant `v` and the next step fetches the opcode byte `op` at an in-range `pc`: the condition
under which every instruction rule is entered (spec/41_variant_a.md, spec/42_variant_b.md, first paragraphs). -/
abbrev State.Fetches (s : State) (v : Variant) (op : Byte) : Prop :=
  s.config.variant = v ∧ s.allocated = true ∧ s.phase = .running ∧ InRange s.pc s ∧ memRead s.pc s = op

/-- Between runs, with memory allocated, the host's next operation is `op` and `rest` come after it. -/
abbrev State.Asks (s : State) (op : HostOp) (rest : List HostOp) : Prop :=
  s.phase = .idle ∧ s.allocated = true ∧ s.pending = op :: rest

/-- The address operand in the two bytes at `a`, high byte first, in plain arithmetic: `hi * 256 + lo` (spec/00_scope.md section 5, R45). -/
def operandAddr (a : Int) (s : State) : Int := (memRead a s).toNat * 256 + (memRead (a + 1) s).toNat

end Sys2Proof.Machine
end

