-- ==== Sys2Proof/Certificates/Slice0/Obligations.lean ====
section
/-!
DEFINITION. The statements for the provers, from the numbered rules of spec/. Each docstring names the rules; OBLIGATIONS.json lists
them with their titles.
-/

open Sys2Proof Sys2Proof.Machine

/-- For every engine state s, the state after reset has pc = 0, has W = 0 where the variant is VariantB, reads 0 at every address
a with 0 <= a < MEM_SIZE, and has its memory allocated. The same values stand in State.resetOf for every configuration.
(R32.) -/
def Obligations.ResetLeavesTheResetState : Prop :=
  ∀ s : State,
    ((resetEngine s).pc = 0 ∧ (s.config.variant = .b → (resetEngine s).w = 0) ∧
      (∀ a : Int, 0 ≤ a → a < memSize s → memRead a (resetEngine s) = 0) ∧ (resetEngine s).allocated = true) ∧
    ∀ cfg : Config, (State.resetOf cfg).pc = 0 ∧ (cfg.variant = .b → (State.resetOf cfg).w = 0) ∧
      (∀ a : Int, 0 ≤ a → a < cfg.variant.memSize → memRead a (State.resetOf cfg) = 0) ∧
      (State.resetOf cfg).allocated = true

/-- In every idle state whose next host operation is reset, whether or not memory has been allocated before, the step answers a
next state: memory allocated, every address reads 0, pc = 0, W = 0, the same configuration, still idle, the operation taken
off the list, and no output added: no redraw is raised, which is the spec's own decision D9 (log 13). On VariantA, which has
no W, the value of the field w is the model's own choice (log 17). (R180, R182, R26, R32, 92_eei_decisions.md D9.) -/
def Obligations.HostResetClearsTheEngine : Prop :=
  ∀ (s : State) (rest : List HostOp), s.phase = .idle → s.pending = .reset :: rest →
    ∃ t, step s = .next t ∧ t.allocated = true ∧ (∀ a : Int, memRead a t = 0) ∧ t.pc = 0 ∧ t.w = 0 ∧
      t.config = s.config ∧ t.phase = .idle ∧ t.pending = rest ∧ t.outputs = s.outputs

/-- From an idle state whose next two host operations are resets, the second step changes nothing but the list of operations, and
neither step adds an output: reset raises no redraw event (the spec's own decision D9). (R181, R182, R55, 92_eei_decisions.md
D9.) -/
def Obligations.ResetTwiceIsResetOnceWithoutRedraw : Prop :=
  ∀ (s : State) (rest : List HostOp), s.phase = .idle → s.pending = .reset :: .reset :: rest →
    ∃ t, step s = .next t ∧ step t = .next { t with pending := rest } ∧ t.outputs = s.outputs

/-- For every configuration, State.Inv holds of the state after reset and of the state of an engine just constructed, and so of
State.reset. The clause on an engine just constructed rests on the values the model chose for its memory and w, which R31 and
R32 leave unspecified (DESIGN CHOICE, log 2). (R32, R31, 92_eei_decisions.md D8.) -/
def Obligations.ResetStateMeetsInvariant : Prop :=
  (∀ cfg : Config, (State.resetOf cfg).Inv ∧ (State.constructed cfg).Inv) ∧ State.reset.Inv

/-- For every state with State.Inv, if the step answers a next state, that state has State.Inv: memory in canonical form and
within the address space, a run only on an engine with memory, no W and no redraw on VariantA, every redraw of 1000 bytes.
This covers every instruction, every signal and every host operation. That the field w is 0 on VariantA, which has no W, is
the model's own choice (log 17). (R26, R30, R31, R44, R53, R55.) -/
def Obligations.EveryStepKeepsInvariant : Prop :=
  ∀ s t : State, s.Inv → step s = .next t → t.Inv

/-- While a run is in progress, a step that starts with pc in -128 .. 65535 leaves it there; and a step that starts with pc
outside 0 .. MEM_SIZE-1 leaves pc as it is and ends the run. That pc stays is the spec's own decisions D2 (negative) and D3
(past the end), and the lower bound rests on the two's complement offset of G1 (logs 8, 9, 16). (R25, R23,
92_eei_decisions.md D2, 92_eei_decisions.md D3, 93_implementation_defined.md G1.) -/
def Obligations.RunKeepsPcInProgramRange : Prop :=
  ∀ s t : State, s.phase = .running → step s = .next t →
    (s.PcInProgramRange → t.PcInProgramRange) ∧ (¬ InRange s.pc s → t.pc = s.pc ∧ t.phase = .idle)

/-- Whatever step answers a next state, the configuration is as before, and an engine with memory keeps it. (R2, R31.) -/
def Obligations.ConfigurationNeverChanges : Prop :=
  ∀ s t : State, step s = .next t → t.config = s.config ∧ (s.allocated = true → t.allocated = true)

/-- A step of a run either leaves the run in progress and returns no signal, or ends it and returns exactly one; a step between
runs returns none. (R97, R100, R150.) -/
def Obligations.RunEndsWithExactlyOneSignal : Prop :=
  ∀ s t : State, step s = .next t →
    (s.phase = .running →
      (t.phase = .running ∧ signalsOf t.outputs = signalsOf s.outputs) ∨
      (t.phase = .idle ∧ ∃ sig, signalsOf t.outputs = signalsOf s.outputs ++ [sig])) ∧
    (s.phase = .idle → signalsOf t.outputs = signalsOf s.outputs)

/-- On every engine with memory on which a run is in progress, whatever its pc, registers and memory hold, the step answers a
next state. (R98, R150, 93_implementation_defined.md Part 1.) -/
def Obligations.RunningStepAlwaysAnswers : Prop :=
  ∀ s : State, s.phase = .running → s.allocated = true → ∃ t, step s = .next t

/-- For every state and every other output history, the step on the state with that history answers alike: the same next state
but for the history, to which the same outputs are appended, or the same fault, or the same refusal. A step only ever appends
to the history. (R33, R102.) -/
def Obligations.OutputsAreNeverReadBack : Prop :=
  ∀ (s : State) (o : List Output),
    match step s with
    | .next t => ∃ ev, t.outputs = s.outputs ++ ev ∧
        step { s with outputs := o } = .next { t with outputs := o ++ ev }
    | .fault f => step { s with outputs := o } = .fault f
    | .refused r => step { s with outputs := o } = .refused r

/-- For every state with a run in progress and every other list of host operations, the step answers alike and leaves the list
untouched. That the host has no move during a run is the spec's own decision D7, and that its operations wait in a list is
the model's choice (log 4). (R57, 92_eei_decisions.md D7.) -/
def Obligations.HostHasNoMoveDuringRun : Prop :=
  ∀ (s : State) (p : List HostOp), s.phase = .running →
    match step s with
    | .next t => t.pending = s.pending ∧ step { s with pending := p } = .next { t with pending := p }
    | .fault f => step { s with pending := p } = .fault f
    | .refused r => step { s with pending := p } = .refused r

/-- For every step of a run: where it fetches opcode 0x51 on VariantB with an address operand below 1000 it adds exactly one
redraw event; in every other case it adds none. (R52, R55.) -/
def Obligations.OnlyVideoStoreRedrawsInRun : Prop :=
  ∀ s t : State, s.phase = .running → step s = .next t →
    (s.Fetches .b 0x51 ∧ operandAddr (s.pc + 1) s < 1000 →
      ∃ snap, redrawsOf t.outputs = redrawsOf s.outputs ++ [snap]) ∧
    (¬ (s.Fetches .b 0x51 ∧ operandAddr (s.pc + 1) s < 1000) → redrawsOf t.outputs = redrawsOf s.outputs)

/-- Every address 0 <= a < 1024 (VariantA) or 0 <= a < 1536 (VariantB) reads as the cell's stored byte; every other integer
address reads 0. (R42.) -/
def Obligations.MemReadIsBoundsChecked : Prop :=
  ∀ (s : State) (a : Int),
    (0 ≤ a ∧ a < (if s.config.variant = .a then 1024 else 1536) → memRead a s = Memory.get s.mem a.toNat) ∧
    (a < 0 ∨ (if s.config.variant = .a then 1024 else 1536) ≤ a → memRead a s = 0)

/-- With memory in canonical form (an invariant of the machine): after a write in range, the address written reads the byte
written and every other address reads as before; a write out of range leaves the whole state as it is. pc, W and the run are
untouched. (R43, R44, R59.) -/
def Obligations.WriteSetsOneCellOrNothing : Prop :=
  ∀ (s : State) (a : Int) (v : Byte), Memory.wf s.mem = true →
    (0 ≤ a ∧ a < memSize s →
      (∀ b : Int, memRead b (memWrite a v s) = if b = a then v else memRead b s) ∧
      (memWrite a v s).pc = s.pc ∧ (memWrite a v s).w = s.w ∧ (memWrite a v s).phase = s.phase ∧
      (memWrite a v s).config = s.config ∧ (memWrite a v s).allocated = s.allocated ∧
      (memWrite a v s).pending = s.pending) ∧
    (a < 0 ∨ memSize s ≤ a → memWrite a v s = s)

/-- On VariantB a write at 0 <= a < 1000, whatever the value, appends exactly one redraw event, whose 1000 bytes are what
addresses 0 .. 999 read after the write; every other write, and every write on VariantA, appends nothing. That the bytes are
those after the write is the spec's own decision D10 (log 14). (R52, R53, R55, 92_eei_decisions.md D10.) -/
def Obligations.VideoWriteRedrawsWithSnapshot : Prop :=
  ∀ (s : State) (a : Int) (v : Byte),
    (s.config.variant = .b ∧ 0 ≤ a ∧ a < 1000 →
      ∃ snap, (memWrite a v s).outputs = s.outputs ++ [.redraw snap] ∧ snap.length = 1000 ∧
        ∀ k : Nat, k < 1000 → snap[k]? = some (memRead (k : Int) (memWrite a v s))) ∧
    (¬ (s.config.variant = .b ∧ 0 ≤ a ∧ a < 1000) → (memWrite a v s).outputs = s.outputs)

/-- On VariantB, where a B.STW stores to the address of the instruction after it, in range, the next step fetches W as its opcode
byte. (R62, R58, R131.) -/
def Obligations.StoredByteIsFetchedNext : Prop :=
  ∀ s : State, Memory.wf s.mem = true → s.Fetches .b 0x51 → operandAddr (s.pc + 1) s = s.pc + 3 → s.pc + 3 < 1536 →
    ∃ t, step s = .next t ∧ t.Fetches .b s.w

/-- For every instruction and every bytes after it, decoding its encoding in its own variant gives the instruction and those
bytes: no bit of an operand is dropped. (R71, R74, R76, R77.) -/
def Obligations.DecodeInvertsEncode : Prop :=
  ∀ (v : Variant) (i : Instr) (rest : List Byte), i.WellFormed v → decode v (encode i ++ rest) = .ok (i, rest)

/-- Whenever the decoder of a variant reads an instruction from a list of bytes, the instruction belongs to that variant and the
list is its encoding followed by the bytes left over: each word has one meaning. (R71, R72, R76, R77.) -/
def Obligations.EncodeInvertsDecode : Prop :=
  ∀ (v : Variant) (bytes rest : List Byte) (i : Instr), decode v bytes = .ok (i, rest) →
    i.WellFormed v ∧ bytes = encode i ++ rest

/-- On four or more bytes the decoder answers an instruction exactly when byte 0 is in the variant's map, and names the opcode as
invalid exactly when it is not: VariantA 0A 13 16 17 FF, VariantB 50 51 5A 5B 6E 70 FF. No operand byte matters. (R76, R77,
R79.) -/
def Obligations.OpcodesOutsideTheMapAreRejected : Prop :=
  ∀ (v : Variant) (op b1 b2 b3 : Byte) (rest : List Byte),
    ((∃ i r, decode v (op :: b1 :: b2 :: b3 :: rest) = .ok (i, r)) ↔ op ∈ opcodesOf v) ∧
    (decode v (op :: b1 :: b2 :: b3 :: rest) = .error (.invalidOpcode op) ↔ op ∉ opcodesOf v)

/-- If bytes that begin with the same opcode decode in both variants, that opcode is 0xFF. (R78.) -/
def Obligations.OpcodeMapsShareOnlyHalt : Prop :=
  ∀ (op : Byte) (x y : List Byte) (i j : Instr) (r r' : List Byte),
    decode .a (op :: x) = .ok (i, r) → decode .b (op :: y) = .ok (j, r') → op = 0xFF

/-- A few encodings written out from the formats and opcode maps decode to the instructions they stand for, high address byte
first. (R71, R76, R77.) -/
def Obligations.WrittenOutWordsDecode : Prop :=
  decode .a [0x0A, 0x05, 0x01, 0x10] = .ok (.aAddm 0x05 0x0110, []) ∧
    decode .a [0x17, 0xFE] = .ok (.aBra 0xFE, []) ∧
    decode .b [0x51, 0x03, 0xE7] = .ok (.bStw 0x03E7, []) ∧
    decode .b [0x70, 0x07, 0x04, 0x10] = .ok (.bBeq 0x07 0x0410, []) ∧
    decode .a [0xFF] = .ok (.aHlt, []) ∧ decode .b [0xFF] = .ok (.bHlt, [])

/-- Every address at or beyond MEM_SIZE reads 0. On either variant, where an instruction is fetched n bytes before the end of
memory (n from 1 to 4), the step is exec of what those n bytes followed by zeros decode to. In particular, form by form, with
the opcode in the last byte: A.JMP and B.JMP jump to 0, A.BRA stays where it is, A.ADDM and A.SUBM write cell 0 back, B.LDI
loads 0, B.ADDI and B.SUBI leave W, B.STW stores to cell 0, B.BEQ compares W with 0 and branches to 0; and A.ADDM and A.SUBM
at 1022 take the last byte as imm for cell 0, B.STW at 1534 takes it as the high address byte. No signal is raised but
B.BEQ's own (the spec's own decision D5, log 5). The wrap of a memory cell modulo 256 is the spec's own decision D4 (log 10).
(R81, R42, R74, R126, R136, 92_eei_decisions.md D4, 92_eei_decisions.md D5.) -/
def Obligations.OperandBytesBeyondEndReadZero : Prop :=
  ∀ s : State,
    (∀ a : Int, memSize s ≤ a → memRead a s = 0) ∧
    (∀ (v : Variant) (op : Byte) (n : Nat) (i : Instr) (rest : List Byte), s.Fetches v op → 1 ≤ n → n ≤ 4 →
      s.pc + n = memSize s →
      decode v (((List.range n).map fun k : Nat => memRead (s.pc + k) s) ++ List.replicate (4 - n) 0) = .ok (i, rest) →
      step s = exec i s) ∧
    (s.Fetches .a 0x0A → s.pc = 1022 →
      step s = .next { memWrite 0 (memRead 0 s + memRead 1023 s) s with pc := 1026 }) ∧
    (s.Fetches .a 0x0A → s.pc = 1023 → step s = .next { memWrite 0 (memRead 0 s) s with pc := 1027 }) ∧
    (s.Fetches .a 0x13 → s.pc = 1022 →
      step s = .next { memWrite 0 (memRead 0 s - memRead 1023 s) s with pc := 1026 }) ∧
    (s.Fetches .a 0x13 → s.pc = 1023 → step s = .next { memWrite 0 (memRead 0 s) s with pc := 1027 }) ∧
    (s.Fetches .a 0x16 → s.pc = 1023 → step s = .next { s with pc := 0 }) ∧
    (s.Fetches .a 0x17 → s.pc = 1023 → step s = .next s) ∧
    (s.Fetches .b 0x50 → s.pc = 1535 → step s = .next { s with w := 0, pc := 1537 }) ∧
    (s.Fetches .b 0x51 → s.pc = 1534 →
      step s = .next { memWrite ((memRead 1535 s).toNat * 256 : Int) s.w s with pc := 1537 }) ∧
    (s.Fetches .b 0x51 → s.pc = 1535 → step s = .next { memWrite 0 s.w s with pc := 1538 }) ∧
    (s.Fetches .b 0x5A → s.pc = 1535 → step s = .next { s with pc := 1537 }) ∧
    (s.Fetches .b 0x5B → s.pc = 1535 → step s = .next { s with pc := 1537 }) ∧
    (s.Fetches .b 0x6E → s.pc = 1535 → step s = .next { s with pc := 0 }) ∧
    (s.Fetches .b 0x70 → s.pc = 1535 → s.config.beqFixed = true →
      step s = .next { s with pc := (if s.w = 0 then 0 else 1539) }) ∧
    (s.Fetches .b 0x70 → s.pc = 1535 → s.config.beqFixed = false →
      step s = .next { s with
        pc := (if s.w = 0 then 0 else 1539)
        phase := .idle
        outputs := s.outputs ++ [.signal .invalidOpcode] })

/-- Where a run on VariantA fetches 0x0A, the step reads imm at pc+1, addr at pc+2 and pc+3 high byte first and the old byte at
addr, writes (old + imm) mod 256 at addr by MemWrite (dropped out of range), and sets pc to pc + 4; nothing else changes. The
modulo-256 wrap in a memory cell is the spec's own decision D4. (R120, R126, 92_eei_decisions.md D4.) -/
def Obligations.AddmStepAddsToMemory : Prop :=
  ∀ s : State, s.Fetches .a 0x0A →
    step s = .next
      { memWrite (operandAddr (s.pc + 2) s)
          (BitVec.ofNat 8 (((memRead (operandAddr (s.pc + 2) s) s).toNat + (memRead (s.pc + 1) s).toNat) % 256)) s with
        pc := s.pc + 4 }

/-- Where a run on VariantA fetches 0x13, the step does as A.ADDM does with the difference (old - imm) mod 256. The modulo-256
wrap in a memory cell is the spec's own decision D4. (R121, R126, 92_eei_decisions.md D4.) -/
def Obligations.SubmStepSubtractsFromMemory : Prop :=
  ∀ s : State, s.Fetches .a 0x13 →
    step s = .next
      { memWrite (operandAddr (s.pc + 2) s)
          (BitVec.ofInt 8 (((memRead (operandAddr (s.pc + 2) s) s).toNat - (memRead (s.pc + 1) s).toNat : Int) % 256)) s with
        pc := s.pc + 4 }

/-- Where a run on VariantA fetches 0x16, the step sets pc to the 16-bit address at pc+1 and pc+2, high byte first, whatever it
is, and changes nothing else. (R122.) -/
def Obligations.AJmpStepJumps : Prop :=
  ∀ s : State, s.Fetches .a 0x16 → step s = .next { s with pc := operandAddr (s.pc + 1) s }

/-- Where a run on VariantA fetches 0x17, the step adds to pc the byte at pc+1 read as two's complement (the byte itself up to
127, the byte minus 256 above), and changes nothing else. The spec marks the two's complement reading as general knowledge
(G1). (R123, R75, 93_implementation_defined.md G1.) -/
def Obligations.BraStepBranchesFromItsOwnAddress : Prop :=
  ∀ s : State, s.Fetches .a 0x17 →
    step s = .next { s with pc := s.pc + (if (memRead (s.pc + 1) s).toNat ≤ 127
      then ((memRead (s.pc + 1) s).toNat : Int) else (memRead (s.pc + 1) s).toNat - 256) }

/-- Where a run on either variant fetches 0xFF at an in-range pc, the step ends the run with the signal Halted; pc, W and memory
are unchanged (that pc stays is the spec's own decision D3). (R124, R137, R151, 92_eei_decisions.md D3.) -/
def Obligations.HaltSentinelEndsTheRun : Prop :=
  ∀ (s : State) (v : Variant), s.Fetches v 0xFF →
    step s = .next { s with phase := .idle, outputs := s.outputs ++ [.signal .halted] }

/-- Where a run on VariantB fetches 0x50, the step sets W to the byte at pc+1 (0 beyond the end of memory) and pc to pc + 2;
memory is not written and nothing is raised. (R130.) -/
def Obligations.LdiStepLoadsW : Prop :=
  ∀ s : State, s.Fetches .b 0x50 → step s = .next { s with w := memRead (s.pc + 1) s, pc := s.pc + 2 }

/-- With memory in canonical form (an invariant), where a run on VariantB fetches 0x51: pc becomes pc + 3, W and the run are
unchanged, the addressed cell reads W when addr < 1536, every other address reads as before, nothing is stored when addr >=
1536, and exactly one redraw is added when addr < 1000, no output otherwise. (R131.) -/
def Obligations.StwStepStoresW : Prop :=
  ∀ s : State, Memory.wf s.mem = true → s.Fetches .b 0x51 →
    ∃ t, step s = .next t ∧ t.pc = s.pc + 3 ∧ t.w = s.w ∧ t.phase = s.phase ∧ t.config = s.config ∧
      t.allocated = s.allocated ∧ t.pending = s.pending ∧
      (operandAddr (s.pc + 1) s < 1536 → memRead (operandAddr (s.pc + 1) s) t = s.w) ∧
      (1536 ≤ operandAddr (s.pc + 1) s → t.mem = s.mem) ∧
      (∀ b : Int, b ≠ operandAddr (s.pc + 1) s → memRead b t = memRead b s) ∧
      (operandAddr (s.pc + 1) s < 1000 → ∃ snap, t.outputs = s.outputs ++ [.redraw snap]) ∧
      (1000 ≤ operandAddr (s.pc + 1) s → t.outputs = s.outputs)

/-- Where a run on VariantB fetches 0x5A, the step sets W to (W + imm) mod 256 with imm the byte at pc+1, and pc to pc + 2;
nothing else changes. (R132.) -/
def Obligations.AddiStepAddsToW : Prop :=
  ∀ s : State, s.Fetches .b 0x5A →
    step s = .next { s with w := BitVec.ofNat 8 ((s.w.toNat + (memRead (s.pc + 1) s).toNat) % 256), pc := s.pc + 2 }

/-- Where a run on VariantB fetches 0x5B, the step sets W to (W - imm) mod 256 with imm the byte at pc+1, and pc to pc + 2;
nothing else changes. (R133.) -/
def Obligations.SubiStepSubtractsFromW : Prop :=
  ∀ s : State, s.Fetches .b 0x5B →
    step s = .next
      { s with w := BitVec.ofInt 8 ((s.w.toNat - (memRead (s.pc + 1) s).toNat : Int) % 256), pc := s.pc + 2 }

/-- Where a run on VariantB fetches 0x6E, the step sets pc to the 16-bit address at pc+1 and pc+2, high byte first, whatever it
is, and changes nothing else. (R134.) -/
def Obligations.BJmpStepJumps : Prop :=
  ∀ s : State, s.Fetches .b 0x6E → step s = .next { s with pc := operandAddr (s.pc + 1) s }

/-- Where a run on VariantB fetches 0x70, the next state has pc at the address in pc+2 and pc+3 when the byte at pc+1 equals W,
and at pc + 4 otherwise; W and memory are unchanged and no redraw is raised. This holds whatever BEQ_FIXED is. (R135.) -/
def Obligations.BeqStepDecidesTheBranch : Prop :=
  ∀ s : State, s.Fetches .b 0x70 →
    ∃ t, step s = .next t ∧
      t.pc = (if memRead (s.pc + 1) s = s.w then operandAddr (s.pc + 2) s else s.pc + 4) ∧
      t.w = s.w ∧ t.mem = s.mem ∧ redrawsOf t.outputs = redrawsOf s.outputs ∧
      t.config = s.config ∧ t.allocated = s.allocated ∧ t.pending = s.pending

/-- Where a run on VariantB fetches 0x70: with BEQ_FIXED = false the run ends with InvalidOpcode on both paths, W and memory
unchanged, pc written as the branch decided; with BEQ_FIXED = true only pc changes and the run goes on. Which of the two is
the hardware is the spec's own decision D5. (R136, R153, 92_eei_decisions.md D5.) -/
def Obligations.BeqStepFallsIntoDefaultArm : Prop :=
  ∀ s : State, s.Fetches .b 0x70 →
    (s.config.beqFixed = false →
      step s = .next { s with
        pc := (if memRead (s.pc + 1) s = s.w then operandAddr (s.pc + 2) s else s.pc + 4)
        phase := .idle
        outputs := s.outputs ++ [.signal .invalidOpcode] }) ∧
    (s.config.beqFixed = true →
      step s = .next { s with
        pc := (if memRead (s.pc + 1) s = s.w then operandAddr (s.pc + 2) s else s.pc + 4) })

/-- Where a run on either variant fetches an opcode byte that is not in its map (VariantA 0A 13 16 17 FF, VariantB 50 51 5A 5B 6E
70 FF), the step ends the run with InvalidOpcode; pc, W and memory are unchanged (that pc stays is the spec's own decision
D3). (R125, R138, R79, 92_eei_decisions.md D3.) -/
def Obligations.UnknownOpcodeEndsTheRun : Prop :=
  ∀ (s : State) (v : Variant) (op : Byte), s.Fetches v op → op ∉ opcodesOf v →
    step s = .next { s with phase := .idle, outputs := s.outputs ++ [.signal .invalidOpcode] }

/-- Where a run is in progress and pc is at least 1024 (VariantA) or 1536 (VariantB), the step ends the run with OutOfBounds; pc
(the spec's own decision D3, log 9), W and memory are unchanged. (R98, R152, 92_eei_decisions.md D3.) -/
def Obligations.FetchPastTheEndEndsTheRun : Prop :=
  ∀ s : State, s.phase = .running → s.allocated = true →
    (if s.config.variant = .a then 1024 else 1536) ≤ s.pc →
    step s = .next { s with phase := .idle, outputs := s.outputs ++ [.signal .outOfBounds] }

/-- Where a run is in progress and pc is negative, the fetch reads 0 and the step ends the run with InvalidOpcode; pc keeps its
negative value. This is the spec's own decision D2. (R24, R153, 92_eei_decisions.md D2.) -/
def Obligations.NegativePcIsInvalidOpcode : Prop :=
  ∀ s : State, s.phase = .running → s.allocated = true → s.pc < 0 →
    step s = .next { s with phase := .idle, outputs := s.outputs ++ [.signal .invalidOpcode] }

/-- Where a run is in progress with pc below MEM_SIZE and the four bytes at pc decode to an instruction, that instruction belongs
to the engine's variant and the step is exec of it at that very state: nothing is added around exec, and exec itself moves
pc. (R97, R98, R70.) -/
def Obligations.StepRunsTheDecodedInstruction : Prop :=
  ∀ (s : State) (i : Instr) (rest : List Byte), s.phase = .running → s.allocated = true → s.pc < memSize s →
    decode s.config.variant
      [memRead s.pc s, memRead (s.pc + 1) s, memRead (s.pc + 2) s, memRead (s.pc + 3) s] = .ok (i, rest) →
    i.WellFormed s.config.variant ∧ step s = exec i s

/-- On every VariantA state, for every immediate and address, exec of A.ADDM and of A.SUBM answers a next state: pc + 4; W,
configuration, run, outputs and pending operations unchanged; every address but addr reads as before; with memory in
canonical form (an invariant) addr reads the sum (difference) mod 256 when below 1024; memory is unchanged when addr is 1024
or more. (R120, R121, R126, 92_eei_decisions.md D4.) -/
def Obligations.MemoryArithmeticCompletesWithFrame : Prop :=
  ∀ (imm : Byte) (addr : Addr) (s : State), s.config.variant = .a →
    (∃ t, exec (.aAddm imm addr) s = .next t ∧ t.pc = s.pc + 4 ∧ t.w = s.w ∧ t.config = s.config ∧
      t.allocated = s.allocated ∧ t.phase = s.phase ∧ t.outputs = s.outputs ∧ t.pending = s.pending ∧
      (∀ b : Int, b ≠ addr.toNat → memRead b t = memRead b s) ∧
      (Memory.wf s.mem = true → addr.toNat < 1024 →
        memRead addr.toNat t = BitVec.ofNat 8 (((memRead addr.toNat s).toNat + imm.toNat) % 256)) ∧
      (1024 ≤ addr.toNat → t.mem = s.mem)) ∧
    (∃ t, exec (.aSubm imm addr) s = .next t ∧ t.pc = s.pc + 4 ∧ t.w = s.w ∧ t.config = s.config ∧
      t.allocated = s.allocated ∧ t.phase = s.phase ∧ t.outputs = s.outputs ∧ t.pending = s.pending ∧
      (∀ b : Int, b ≠ addr.toNat → memRead b t = memRead b s) ∧
      (Memory.wf s.mem = true → addr.toNat < 1024 →
        memRead addr.toNat t = BitVec.ofInt 8 (((memRead addr.toNat s).toNat - imm.toNat : Int) % 256)) ∧
      (1024 ≤ addr.toNat → t.mem = s.mem))

/-- On every state of its variant, for every operand, exec of A.JMP and B.JMP answers the state with pc set to the address, exec
of A.BRA the state with the two's complement offset added to pc; W, memory, outputs, the run and everything else are
unchanged. (R122, R123, R134, 93_implementation_defined.md G1.) -/
def Obligations.JumpsCompleteAndChangeOnlyPc : Prop :=
  ∀ s : State,
    (∀ addr : Addr, s.config.variant = .a → exec (.aJmp addr) s = .next { s with pc := addr.toNat }) ∧
    (∀ off : Byte, s.config.variant = .a →
      exec (.aBra off) s = .next { s with pc := s.pc + (if off.toNat ≤ 127 then (off.toNat : Int) else off.toNat - 256) }) ∧
    (∀ addr : Addr, s.config.variant = .b → exec (.bJmp addr) s = .next { s with pc := addr.toNat })

/-- On every VariantB state, for every immediate, exec of B.LDI, B.ADDI and B.SUBI answers the state with W set to imm, (W + imm)
mod 256 and (W - imm) mod 256, and pc + 2; memory, outputs, the run and everything else are unchanged. (R130, R132, R133,
R139.) -/
def Obligations.RegisterInstructionsCompleteAndChangeOnlyWAndPc : Prop :=
  ∀ (imm : Byte) (s : State), s.config.variant = .b →
    exec (.bLdi imm) s = .next { s with w := imm, pc := s.pc + 2 } ∧
    exec (.bAddi imm) s = .next { s with w := BitVec.ofNat 8 ((s.w.toNat + imm.toNat) % 256), pc := s.pc + 2 } ∧
    exec (.bSubi imm) s =
      .next { s with w := BitVec.ofInt 8 ((s.w.toNat - imm.toNat : Int) % 256), pc := s.pc + 2 }

/-- On every VariantB state, for every address, exec of B.STW answers a next state: pc + 3; W, configuration, run and pending
operations unchanged; every address but addr reads as before; with memory in canonical form (an invariant) addr reads W when
below 1536; memory is unchanged when addr is 1536 or more; one redraw with the 1000 bytes after the write (the spec's own
decision D10, log 14) is appended when addr is below 1000, nothing otherwise. (R131, R43, R52, 92_eei_decisions.md D10.) -/
def Obligations.StoreCompletesWithFrame : Prop :=
  ∀ (addr : Addr) (s : State), s.config.variant = .b →
    ∃ t, exec (.bStw addr) s = .next t ∧ t.pc = s.pc + 3 ∧ t.w = s.w ∧ t.config = s.config ∧
      t.allocated = s.allocated ∧ t.phase = s.phase ∧ t.pending = s.pending ∧
      (∀ b : Int, b ≠ addr.toNat → memRead b t = memRead b s) ∧
      (Memory.wf s.mem = true → addr.toNat < 1536 → memRead addr.toNat t = s.w) ∧
      (1536 ≤ addr.toNat → t.mem = s.mem) ∧
      (addr.toNat < 1000 → ∃ snap, t.outputs = s.outputs ++ [.redraw snap] ∧ snap.length = 1000 ∧
        ∀ k : Nat, k < 1000 → snap[k]? = some (memRead (k : Int) t)) ∧
      (1000 ≤ addr.toNat → t.outputs = s.outputs)

/-- On every VariantB state, for every operand, exec of B.BEQ answers the state with pc at addr or pc + 4, the run ended and
InvalidOpcode returned when BEQ_FIXED is false (the spec's decision D5), and with pc alone changed when it is true. (R135,
R136, 92_eei_decisions.md D5.) -/
def Obligations.BranchEqualCompletesWithFrame : Prop :=
  ∀ (cmpVal : Byte) (addr : Addr) (s : State), s.config.variant = .b →
    (s.config.beqFixed = false →
      exec (.bBeq cmpVal addr) s = .next { s with
        pc := (if cmpVal = s.w then (addr.toNat : Int) else s.pc + 4)
        phase := .idle
        outputs := s.outputs ++ [.signal .invalidOpcode] }) ∧
    (s.config.beqFixed = true →
      exec (.bBeq cmpVal addr) s = .next { s with pc := (if cmpVal = s.w then (addr.toNat : Int) else s.pc + 4) })

/-- On every state of its variant, exec of the halt answers the state with the run ended and the signal Halted returned; pc (the
spec's decision D3), W, memory and everything else are unchanged. (R124, R137, 92_eei_decisions.md D3.) -/
def Obligations.HaltsCompleteAndOnlyEndTheRun : Prop :=
  ∀ s : State,
    (s.config.variant = .a →
      exec .aHlt s = .next { s with phase := .idle, outputs := s.outputs ++ [.signal .halted] }) ∧
    (s.config.variant = .b →
      exec .bHlt s = .next { s with phase := .idle, outputs := s.outputs ++ [.signal .halted] })

/-- For every instruction and every state, by the first byte of the instruction's encoding: where that byte is not in the map of
the engine's variant (the halt sentinel 0xFF is in both), exec answers the state with the run ended and InvalidOpcode
returned, and nothing else changed; where it is 0xFF, exec answers the state with the run ended and Halted returned, and
nothing else changed. That pc stays is the spec's own decision D3 (log 9), and that exec treats an instruction of the other
variant as its opcode byte is the model's inference (log 18). (R78, R79, R99, 92_eei_decisions.md D3.) -/
def Obligations.OtherVariantsInstructionIsInvalid : Prop :=
  ∀ (i : Instr) (s : State) (op : Byte) (rest : List Byte), encode i = op :: rest →
    (op ∉ opcodesOf s.config.variant →
      exec i s = .next { s with phase := .idle, outputs := s.outputs ++ [.signal .invalidOpcode] }) ∧
    (op = 0xFF → exec i s = .next { s with phase := .idle, outputs := s.outputs ++ [.signal .halted] })

/-- In every idle state with memory whose next host operation is peek of any integer address, the step returns the byte MemRead
gives there (0 outside 0 .. MEM_SIZE-1) and changes nothing else. (R94.) -/
def Obligations.PeekReturnsTheByte : Prop :=
  ∀ (s : State) (a : Int) (rest : List HostOp), s.Asks (.peek a) rest →
    step s = .next { s with pending := rest, outputs := s.outputs ++ [.peeked (memRead a s)] } ∧
    (a < 0 ∨ (memSize s : Int) ≤ a → memRead a s = 0)

/-- In every idle state with memory (canonical, an invariant) whose next host operation is poke: in range the cell reads the
value and no other address changes; out of range memory and outputs are unchanged; exactly one redraw is appended on VariantB
for 0 <= address < 1000, whose 1000 bytes are what addresses 0 .. 999 read after the write (the spec's own decision D10), and
nothing otherwise; pc and W are unchanged and the engine stays idle. (R95, R43, R52, R53, 92_eei_decisions.md D10.) -/
def Obligations.PokeWritesTheByte : Prop :=
  ∀ (s : State) (a : Int) (v : Byte) (rest : List HostOp), Memory.wf s.mem = true → s.Asks (.poke a v) rest →
    ∃ t, step s = .next t ∧ t.pc = s.pc ∧ t.w = s.w ∧ t.config = s.config ∧ t.phase = .idle ∧ t.pending = rest ∧
      t.allocated = s.allocated ∧
      (0 ≤ a → a < memSize s → memRead a t = v) ∧ (∀ b : Int, b ≠ a → memRead b t = memRead b s) ∧
      (a < 0 ∨ memSize s ≤ a → t.mem = s.mem ∧ t.outputs = s.outputs) ∧
      (s.config.variant = .b → 0 ≤ a → a < 1000 → ∃ snap, t.outputs = s.outputs ++ [.redraw snap] ∧ snap.length = 1000 ∧
        ∀ k : Nat, k < 1000 → snap[k]? = some (memRead (k : Int) t)) ∧
      (s.config.variant = .a ∨ 1000 ≤ a → t.outputs = s.outputs)

/-- In every idle state with memory whose next host operation is fetchExecute, the step sets pc to start when given (any integer)
and keeps it when not, and a run is in progress; nothing else changes. In particular start = 5000 then ends the run with
OutOfBounds and pc = 5000: the spec derives this from R97 and R98, and that pc stays there is its own decision D3 (log 9).
(R93, R97, R98, 92_eei_decisions.md D3.) -/
def Obligations.FetchExecuteBeginsTheRun : Prop :=
  ∀ (s : State) (start : Option Int) (rest : List HostOp), s.Asks (.fetchExecute start) rest →
    (∃ t, step s = .next t ∧
      t = { s with pending := rest, phase := .running, pc := (match start with | some p => p | none => s.pc) }) ∧
    (start = some 5000 → ∃ t u, step s = .next t ∧ step t = .next u ∧ u.pc = 5000 ∧ u.phase = .idle ∧
      u.outputs = s.outputs ++ [.signal .outOfBounds])

/-- On an idle engine whose memory has not been allocated, every host operation other than reset is refused with beforeReset, and
reset answers a next state with memory allocated. This is the spec's own decision D8. (R91, R183, 92_eei_decisions.md D8.) -/
def Obligations.OperationsBeforeFirstResetAreRefused : Prop :=
  ∀ (s : State) (op : HostOp) (rest : List HostOp), s.phase = .idle → s.allocated = false → s.pending = op :: rest →
    (op ≠ .reset → step s = .refused .beforeReset) ∧
    (op = .reset → ∃ t, step s = .next t ∧ t.allocated = true)

/-- For every idle step on an engine with memory whose operation is neither reset nor deserializeState: W is unchanged; pc is
unchanged unless the operation is fetchExecute; memory is unchanged unless it is poke. (R94, R95, R96, R17.) -/
def Obligations.HostChangesOnlyWhatItsOperationNames : Prop :=
  ∀ (s t : State) (op : HostOp) (rest : List HostOp), s.Asks op rest → step s = .next t → op ≠ .reset →
    (∀ lines, op ≠ .deserializeState lines) →
    t.w = s.w ∧ ((∀ start, op ≠ .fetchExecute start) → t.pc = s.pc) ∧ ((∀ a v, op ≠ .poke a v) → t.mem = s.mem)

/-- For every idle state with the invariant whose next host operation is serializeState, the step puts one list of lines out and
changes nothing else, and handing those lines to deserializeState on a freshly reset engine of the same configuration answers
success and a state with the same pc, W and memory. The lines of a state, idle or not, restore so in every state with the
invariant. Lines are as after parsing, since the text itself is outside the model (log 19). (R14, R15, R16.) -/
def Obligations.RestoreOfSaveReproducesTheEngine : Prop :=
  (∀ (s : State) (rest : List HostOp), s.Inv → s.Asks .serializeState rest →
      ∃ lines t, step s = .next { s with pending := rest, outputs := s.outputs ++ [.saved lines] } ∧
        step { State.resetOf s.config with pending := [.deserializeState lines] } = .next t ∧
        t.pc = s.pc ∧ t.w = s.w ∧ t.mem = s.mem ∧ t.outputs.getLast? = some (.restored 0)) ∧
    ∀ s : State, s.Inv →
      ∃ t, step { State.resetOf s.config with pending := [.deserializeState (saveLines s)] } = .next t ∧
        t.pc = s.pc ∧ t.w = s.w ∧ t.mem = s.mem ∧ t.outputs.getLast? = some (.restored 0)

/-- For lines with none malformed (and no W line on VariantA), followed by a malformed line and any more lines, the restore ends
in the very state the good lines alone lead to, except that it returns the bad line's 1-based number where they return 0.
Lines are as after parsing, and a cell line outside memory is dropped as poke drops it, the model's choice (log 19). (R15,
R156.) -/
def Obligations.RestoreStopsAtFirstBadLine : Prop :=
  ∀ (s : State) (good rest : List SaveLine), .malformed ∉ good →
    (s.config.variant = .a → ∀ v, .w v ∉ good) →
    ∃ t, hostOp (.deserializeState good) s = .next (emit (.restored 0) t) ∧
      hostOp (.deserializeState (good ++ .malformed :: rest)) s = .next (emit (.restored (good.length + 1)) t)

/-- In every idle state with the invariant whose next host operation is serializeState, the step changes nothing but the list of
operations and puts out one save: the PC line with pc, then on VariantB only the W line with W, then for each address 0 ..
MEM_SIZE-1 in ascending order that does not read 0 a line with the address and the byte it reads. Lines are data, since the
text itself is outside the model (log 19). (R14, R96.) -/
def Obligations.SerializeEmitsTheNonZeroCells : Prop :=
  ∀ (s : State) (rest : List HostOp), s.Inv → s.Asks .serializeState rest →
    step s = .next { s with
      pending := rest
      outputs := s.outputs ++ [.saved (.pc s.pc :: ((if s.config.variant = .b then [.w s.w] else []) ++
        ((List.range (memSize s)).filter fun k : Nat => memRead k s ≠ 0).map fun k : Nat => .cell k (memRead k s)))] }

/-- Where a step of a run that does not fetch B.BEQ ends the run, and the host next calls fetchExecute without start, the run
begun ends at its first step with the same signal and pc, W and memory as they were. The repeat holds because the ending step
leaves pc, which is the spec's own decision D3 (log 9; for a negative pc D2, log 8). (R103, R161, 92_eei_decisions.md D2,
92_eei_decisions.md D3.) -/
def Obligations.EndedRunRepeatsItsSignal : Prop :=
  ∀ (s t : State) (sig : Signal) (rest : List HostOp), s.phase = .running → ¬ s.Fetches .b 0x70 → step s = .next t →
    t.outputs = s.outputs ++ [.signal sig] → t.pending = .fetchExecute none :: rest →
    ∃ u v, step t = .next u ∧ step u = .next v ∧ v.outputs = t.outputs ++ [.signal sig] ∧ v.phase = .idle ∧
      v.pc = t.pc ∧ v.w = t.w ∧ v.mem = t.mem

/-- Where a run on a legacy VariantB engine fetches B.BEQ and the host's next operation is fetchExecute without start, two steps
lead to a run in progress with the same pc, W and memory as one step of the same engine with BEQ_FIXED = true. That the
legacy behaviour is the hardware's is the spec's own decision D5 (log 5). (R136, R161, 92_eei_decisions.md D5.) -/
def Obligations.ResumedLegacyBranchEqualsFixedBranch : Prop :=
  ∀ (s : State) (rest : List HostOp), s.Fetches .b 0x70 → s.config.beqFixed = false →
    s.pending = .fetchExecute none :: rest →
    ∃ t u f, step s = .next t ∧ step t = .next u ∧
      step { s with config := { s.config with beqFixed := true } } = .next f ∧
      u.phase = .running ∧ f.phase = .running ∧ u.pc = f.pc ∧ u.w = f.w ∧ u.mem = f.mem

/-- If a run ends within n steps in state t, it ends in state t within n + k steps, for every k. (R97, R105, 92_eei_decisions.md
D13.) -/
def Obligations.MoreFuelKeepsTheEnd : Prop :=
  ∀ (n k : Nat) (s t : State), runFuel n s = .ended t → runFuel (n + k) s = .ended t

/-- For every state with a run in progress on an engine with memory, the first access granted is the opcode read at pc, the whole
list is in the order of R58 (the spec's own decision D11), and it is exactly: the opcode read alone where pc is past the end
or the opcode is invalid; else, for the instruction decoded at pc, the opcode read at pc, a read of each operand byte it has
at pc+1, pc+2, pc+3 ascending, then for A.ADDM and A.SUBM the data read and the data write at addr, for B.STW the data write
at addr and, below 1000, the display's snapshot read. (R56, R58, R47, R52, 92_eei_decisions.md D11.) -/
def Obligations.GrantsFollowTheAccessOrder : Prop :=
  ∀ s : State, s.phase = .running → s.allocated = true →
    (stepGrants s).head? = some (.opcodeFetch s.pc) ∧ ((stepGrants s).Pairwise fun x y => x.rank ≤ y.rank) ∧
    ((memSize s : Int) ≤ s.pc → stepGrants s = [.opcodeFetch s.pc]) ∧
    (∀ e, decode s.config.variant (fetchBytes s) = .error e → stepGrants s = [.opcodeFetch s.pc]) ∧
    ∀ (i : Instr) (rest : List Byte), s.pc < memSize s → decode s.config.variant (fetchBytes s) = .ok (i, rest) →
      stepGrants s = match i with
        | .aAddm _ addr | .aSubm _ addr =>
          [.opcodeFetch s.pc, .operandFetch (s.pc + 1), .operandFetch (s.pc + 2), .operandFetch (s.pc + 3),
            .dataRead addr.toNat, .dataWrite addr.toNat]
        | .bBeq _ _ => [.opcodeFetch s.pc, .operandFetch (s.pc + 1), .operandFetch (s.pc + 2), .operandFetch (s.pc + 3)]
        | .bStw addr =>
          [.opcodeFetch s.pc, .operandFetch (s.pc + 1), .operandFetch (s.pc + 2), .dataWrite addr.toNat] ++
            if addr.toNat < 1000 then [.snapshotRead] else []
        | .aJmp _ | .bJmp _ => [.opcodeFetch s.pc, .operandFetch (s.pc + 1), .operandFetch (s.pc + 2)]
        | .aBra _ | .bLdi _ | .bAddi _ | .bSubi _ => [.opcodeFetch s.pc, .operandFetch (s.pc + 1)]
        | .aHlt | .bHlt => [.opcodeFetch s.pc]

/-- For every step of a run and every address: if no data write at that address is among the step's grants, the address reads
after the step as before. (R47, R56, R58.) -/
def Obligations.MemoryChangesOnlyAtGrantedWrites : Prop :=
  ∀ (s t : State) (a : Int), s.phase = .running → step s = .next t → .dataWrite a ∉ stepGrants s →
    memRead a t = memRead a s

/-- While a run is in progress every grant is one of the engine's or the display's snapshot read; while the engine is idle none
is the engine's. (R56, R57.) -/
def Obligations.ArbiterIsExclusive : Prop :=
  ∀ (s : State) (g : Grant), g ∈ stepGrants s →
    (s.phase = .running → g.byEngine = true ∨ g = .snapshotRead) ∧ (s.phase = .idle → g.byEngine = false)

/-- For every snapshot, the screen has 25 rows, every row has 40 characters, and the character at row r < 25, column c < 40 is
the snapshot's byte r*40+c where that is at least 0x20 and the space 0x20 where it is less (the space as the blank is the
spec's own decision D10). (R54, 92_eei_decisions.md D10.) -/
def Obligations.ScreenIsTwentyFiveRowsOfForty : Prop :=
  ∀ snap : List Byte, (screen snap).length = 25 ∧ (∀ row ∈ screen snap, row.length = 40) ∧
    ∀ (r c : Nat) (b : Byte), r < 25 → c < 40 → snap[r * 40 + c]? = some b →
      ((screen snap)[r]?.bind fun row => row[c]?) = some (if b.toNat < 32 then 0x20 else b)
end

