-- ==== Sys2Proof/Laws/Decode.lean ====
section
/-!
SUPPORT. The decoder's cases, said once.
-/

namespace Sys2Proof

theorem addr16_toNat (hi lo : Byte) : (addr16 hi lo).toNat = hi.toNat * 256 + lo.toNat := by
  have hl := lo.isLt
  have : (hi ++ lo : BitVec 16).toNat = hi.toNat <<< 8 ||| lo.toNat := BitVec.toNat_append hi lo
  rw [addr16, this, Nat.shiftLeft_eq, Nat.mul_comm, ← Nat.two_pow_add_eq_or_of_lt (by simpa using hl)]

theorem addrHi_toNat (a : Addr) : (addrHi a).toNat = a.toNat / 256 := by
  have := a.isLt
  rw [addrHi, BitVec.extractLsb'_toNat, Nat.shiftRight_eq_div_pow]
  omega

theorem addrLo_toNat (a : Addr) : (addrLo a).toNat = a.toNat % 256 := by
  rw [addrLo, BitVec.extractLsb'_toNat]; simp

@[simp] theorem addr16_addrHi_addrLo (a : Addr) : addr16 (addrHi a) (addrLo a) = a := by
  apply BitVec.eq_of_toNat_eq
  rw [addr16_toNat, addrHi_toNat, addrLo_toNat]; omega

@[simp] theorem addrHi_addr16 (hi lo : Byte) : addrHi (addr16 hi lo) = hi := by
  apply BitVec.eq_of_toNat_eq
  have := lo.isLt
  rw [addrHi_toNat, addr16_toNat]; omega

@[simp] theorem addrLo_addr16 (hi lo : Byte) : addrLo (addr16 hi lo) = lo := by
  apply BitVec.eq_of_toNat_eq
  have := lo.isLt
  rw [addrLo_toNat, addr16_toNat]; omega
/-- On at least four bytes the decoder never runs short: it reads an instruction, or names the opcode as invalid. -/
theorem decode_four (v : Variant) (b0 b1 b2 b3 : Byte) :
    (∃ i rest, decode v [b0, b1, b2, b3] = .ok (i, rest)) ∨
    decode v [b0, b1, b2, b3] = .error (.invalidOpcode b0) := by
  unfold decode
  simp only
  split
  · exact .inl ⟨_, _, rfl⟩
  · cases v with
    | a =>
      simp only [decodeA]
      repeat' split
      all_goals first | exact .inr rfl | exact .inl ⟨_, _, rfl⟩
    | b =>
      simp only [decodeB]
      repeat' split
      all_goals first | exact .inr rfl | exact .inl ⟨_, _, rfl⟩

/-- What the decoder reads belongs to the variant it reads for. -/
theorem decode_variant {v : Variant} {bs rest : List Byte} {i : Instr} (h : decode v bs = .ok (i, rest)) :
    i.variant = v := by
  unfold decode at h
  split at h
  · cases h
  · split at h
    · cases h; cases v <;> rfl
    · cases v with
      | a =>
        simp only [decodeA, takeByteAddr, takeAddr, takeByte] at h
        repeat' split at h
        all_goals first | (cases h; rfl) | cases h
      | b =>
        simp only [decodeB, takeByteAddr, takeAddr, takeByte] at h
        repeat' split at h
        all_goals first | (cases h; rfl) | cases h

end Sys2Proof
end

