-- ==== Sys2Proof/Laws/Memory.lean ====
section
/-!
SUPPORT. The laws of the memory's cells: reading after writing, and that every memory operation keeps the canonical form and the bound.
-/

namespace Sys2Proof.Machine

open Sys2Proof

theorem Memory.wfFrom_mono {lo lo' : Nat} (h : lo' ≤ lo) {m : List Host.Cell} (hm : Memory.wfFrom lo m = true) :
    Memory.wfFrom lo' m = true := by
  cases m with
  | nil => rfl
  | cons c rest =>
    simp only [Memory.wfFrom, Bool.and_eq_true, decide_eq_true_eq] at hm ⊢
    exact ⟨⟨by omega, hm.1.2⟩, hm.2⟩

/-- Below the first listed address every cell reads as unlisted. -/
theorem Memory.get_of_lt {lo a : Nat} (h : a < lo) {m : List Host.Cell} (hm : Memory.wfFrom lo m = true) :
    Memory.get m a = Memory.unlisted := by
  induction m generalizing lo with
  | nil => rfl
  | cons c rest ih =>
    simp only [Memory.wfFrom, Bool.and_eq_true, decide_eq_true_eq] at hm
    have hne : a ≠ c.1 := by omega
    simpa [Memory.get, hne] using ih (lo := c.1 + 1) (by omega) hm.2

/-- A write leaves every other cell alone, in any list. -/
theorem Memory.get_set_other {a b : Nat} (h : b ≠ a) (v : Byte) (m : List Host.Cell) :
    Memory.get (Memory.set a v m) b = Memory.get m b := by
  induction m with
  | nil => by_cases hv : v = Memory.unlisted <;> simp [Memory.set, Memory.get, hv, h]
  | cons c rest ih =>
    obtain ⟨d, u⟩ := c
    simp only [Memory.set]
    split
    · split <;> simp [Memory.get, h]
    · split
      · rename_i _ hd
        subst hd
        split <;> simp [Memory.get, h]
      · simp [Memory.get, ih]

/-- A read after a write to the same cell gives the byte written. -/
theorem Memory.get_set_same {lo a : Nat} (v : Byte) {m : List Host.Cell} (hm : Memory.wfFrom lo m = true) :
    Memory.get (Memory.set a v m) a = v := by
  induction m generalizing lo with
  | nil => by_cases hv : v = Memory.unlisted <;> simp [Memory.set, Memory.get, hv]
  | cons c rest ih =>
    obtain ⟨d, u⟩ := c
    simp only [Memory.wfFrom, Bool.and_eq_true, decide_eq_true_eq] at hm
    simp only [Memory.set]
    split
    · rename_i hd
      split
      · rename_i hv
        subst hv
        have hne : a ≠ d := by omega
        simpa [Memory.get, hne] using Memory.get_of_lt (lo := d + 1) (by omega) hm.2
      · simp [Memory.get]
    · split
      · rename_i _ hd
        subst hd
        split
        · rename_i hv
          subst hv
          exact Memory.get_of_lt (Nat.lt_succ_self a) hm.2
        · simp [Memory.get]
      · rename_i h1 h2
        simp only [Memory.get, h2, if_false]
        exact ih hm.2

theorem Memory.set_wfFrom {lo a : Nat} (h : lo ≤ a) (v : Byte) {m : List Host.Cell} (hm : Memory.wfFrom lo m = true) :
    Memory.wfFrom lo (Memory.set a v m) = true := by
  induction m generalizing lo with
  | nil => by_cases hv : v = Memory.unlisted <;> simp [Memory.set, Memory.wfFrom, hv, h]
  | cons c rest ih =>
    obtain ⟨d, u⟩ := c
    have hm0 := hm
    simp only [Memory.wfFrom, Bool.and_eq_true, decide_eq_true_eq] at hm
    simp only [Memory.set]
    split
    · rename_i hd
      split
      · exact hm0
      · rename_i hv
        simp only [Memory.wfFrom, Bool.and_eq_true, decide_eq_true_eq]
        exact ⟨⟨h, hv⟩, ⟨by omega, hm.1.2⟩, hm.2⟩
    · split
      · rename_i _ hd
        subst hd
        split
        · exact Memory.wfFrom_mono (by omega) hm.2
        · rename_i hv
          simp only [Memory.wfFrom, Bool.and_eq_true, decide_eq_true_eq]
          exact ⟨⟨h, hv⟩, hm.2⟩
      · simp only [Memory.wfFrom, Bool.and_eq_true, decide_eq_true_eq]
        exact ⟨hm.1, ih (by omega) hm.2⟩

theorem Memory.set_wf (a : Nat) (v : Byte) {m : List Host.Cell} (hm : Memory.wf m = true) :
    Memory.wf (Memory.set a v m) = true :=
  Memory.set_wfFrom (Nat.zero_le a) v hm

/-- A cell listed after a write is the one written or was listed before. -/
theorem Memory.mem_set {a : Nat} {v : Byte} {m : List Host.Cell} {c : Host.Cell} (h : c ∈ Memory.set a v m) :
    c.1 = a ∨ c ∈ m := by
  induction m with
  | nil =>
    simp only [Memory.set] at h
    split at h <;> simp_all
  | cons d rest ih =>
    simp only [Memory.set] at h
    split at h
    · split at h
      · exact .inr h
      · rcases List.mem_cons.mp h with rfl | h
        · exact .inl rfl
        · exact .inr h
    · split at h
      · split at h
        · exact .inr (List.mem_cons_of_mem _ h)
        · rcases List.mem_cons.mp h with rfl | h
          · exact .inl rfl
          · exact .inr (List.mem_cons_of_mem _ h)
      · rcases List.mem_cons.mp h with rfl | h
        · exact .inr List.mem_cons_self
        · exact (ih h).imp id (List.mem_cons_of_mem _)

theorem Memory.set_below {n a : Nat} (h : a < n) (v : Byte) {m : List Host.Cell} (hm : Memory.below n m = true) :
    Memory.below n (Memory.set a v m) = true := by
  simp only [Memory.below, List.all_eq_true, decide_eq_true_eq] at hm ⊢
  intro c hc
  rcases Memory.mem_set hc with h' | h'
  · omega
  · exact hm c h'

/-- Storing several bytes keeps the canonical form. -/
theorem Memory.setBytes_wf (n : Nat) (vs : List Byte) {m : List Host.Cell} (hm : Memory.wf m = true) (a : Nat) :
    Memory.wf (Memory.setBytes n a vs m) = true := by
  induction vs generalizing a m with
  | nil => exact hm
  | cons v vs ih =>
    simp only [Memory.setBytes]
    split
    · exact ih (Memory.set_wf a v hm) _
    · exact ih hm _

/-- Storing several bytes keeps the bound. -/
theorem Memory.setBytes_below (n : Nat) (vs : List Byte) {m : List Host.Cell} (hm : Memory.below n m = true) (a : Nat) :
    Memory.below n (Memory.setBytes n a vs m) = true := by
  induction vs generalizing a m with
  | nil => exact hm
  | cons v vs ih =>
    simp only [Memory.setBytes]
    split
    · rename_i h
      exact ih (Memory.set_below h v hm) _
    · exact ih hm _

@[simp] theorem Memory.slice_length (m : List Host.Cell) (a n : Nat) : (Memory.slice m a n).length = n := by
  induction n generalizing a with
  | zero => rfl
  | succ n ih => rw [Memory.slice, List.length_cons, ih]

/-- The byte at index `k` of a slice is the cell `k` places after its first. -/
theorem Memory.getElem?_slice {m : List Host.Cell} {n k : Nat} (h : k < n) (a : Nat) :
    (Memory.slice m a n)[k]? = some (Memory.get m (a + k)) := by
  induction n generalizing a k with
  | zero => omega
  | succ n ih =>
    cases k with
    | zero => rfl
    | succ k =>
      rw [Memory.slice, List.getElem?_cons_succ, ih (by omega), Nat.add_right_comm, Nat.add_assoc]

/-- The empty memory, which `reset` leaves, is in canonical form. -/
theorem Memory.nil_wf : Memory.wf [] = true := rfl

/-- An address no cell lists, as every address at or beyond the bound, reads as unlisted. -/
theorem Memory.get_of_below {n a : Nat} (h : n ≤ a) {m : List Host.Cell} (hm : Memory.below n m = true) :
    Memory.get m a = Memory.unlisted := by
  induction m with
  | nil => rfl
  | cons c rest ih =>
    simp only [Memory.below, List.all_cons, Bool.and_eq_true, decide_eq_true_eq] at hm ih
    have hne : a ≠ c.1 := by omega
    simpa [Memory.get, hne] using ih hm.2

/-- Memories in canonical form that read alike at every cell are equal data. -/
theorem Memory.ext_of_get {lo : Nat} {m m' : List Host.Cell} (hm : Memory.wfFrom lo m = true)
    (hm' : Memory.wfFrom lo m' = true) (h : ∀ a, Memory.get m a = Memory.get m' a) : m = m' := by
  induction m generalizing lo m' with
  | nil =>
    cases m' with
    | nil => rfl
    | cons c rest =>
      simp only [Memory.wfFrom, Bool.and_eq_true, decide_eq_true_eq] at hm'
      have := h c.1
      simp [Memory.get] at this
      exact absurd this.symm hm'.1.2
  | cons c rest ih =>
    obtain ⟨d, u⟩ := c
    cases m' with
    | nil =>
      simp only [Memory.wfFrom, Bool.and_eq_true, decide_eq_true_eq] at hm
      have := h d
      simp [Memory.get] at this
      exact absurd this hm.1.2
    | cons c' rest' =>
      obtain ⟨d', u'⟩ := c'
      simp only [Memory.wfFrom, Bool.and_eq_true, decide_eq_true_eq] at hm hm'
      have hd : d = d' := by
        rcases Nat.lt_trichotomy d d' with hlt | heq | hgt
        · have := h d
          rw [Memory.get_of_lt (m := (d', u') :: rest') (lo := d') hlt (by simp [Memory.wfFrom, hm'.1.2, hm'.2])] at this
          simp [Memory.get] at this
          exact absurd this hm.1.2
        · exact heq
        · have := h d'
          rw [Memory.get_of_lt (m := (d, u) :: rest) (lo := d) hgt (by simp [Memory.wfFrom, hm.1.2, hm.2])] at this
          simp [Memory.get] at this
          exact absurd this.symm hm'.1.2
      subst hd
      have hu : u = u' := by simpa [Memory.get] using h d
      subst hu
      have hrest : rest = rest' := by
        refine ih hm.2 hm'.2 fun a => ?_
        by_cases ha : a = d
        · subst ha
          rw [Memory.get_of_lt (Nat.lt_succ_self a) hm.2, Memory.get_of_lt (Nat.lt_succ_self a) hm'.2]
        · simpa [Memory.get, ha] using h a
      rw [hrest]

end Sys2Proof.Machine
end

