-- ==== Sys2Proof/Laws/State.lean ====
section
/-!
SUPPORT. One lemma for each field under each update of the state, all true by `rfl`, so that no later proof unfolds a record update.
-/

namespace Sys2Proof.Machine

open Sys2Proof

variable (s : State)

@[simp] theorem emit_config (o : Output) : (emit o s).config = s.config := rfl
@[simp] theorem emit_allocated (o : Output) : (emit o s).allocated = s.allocated := rfl
@[simp] theorem emit_phase (o : Output) : (emit o s).phase = s.phase := rfl
@[simp] theorem emit_pc (o : Output) : (emit o s).pc = s.pc := rfl
@[simp] theorem emit_w (o : Output) : (emit o s).w = s.w := rfl
@[simp] theorem emit_mem (o : Output) : (emit o s).mem = s.mem := rfl
@[simp] theorem emit_outputs (o : Output) : (emit o s).outputs = s.outputs ++ [o] := rfl
@[simp] theorem emit_pending (o : Output) : (emit o s).pending = s.pending := rfl
@[simp] theorem emit_memSize (o : Output) : memSize (emit o s) = memSize s := rfl

@[simp] theorem setPc_config (target : Int) : (setPc target s).config = s.config := rfl
@[simp] theorem setPc_allocated (target : Int) : (setPc target s).allocated = s.allocated := rfl
@[simp] theorem setPc_phase (target : Int) : (setPc target s).phase = s.phase := rfl
@[simp] theorem setPc_pc (target : Int) : (setPc target s).pc = target := rfl
@[simp] theorem setPc_w (target : Int) : (setPc target s).w = s.w := rfl
@[simp] theorem setPc_mem (target : Int) : (setPc target s).mem = s.mem := rfl
@[simp] theorem setPc_outputs (target : Int) : (setPc target s).outputs = s.outputs := rfl
@[simp] theorem setPc_pending (target : Int) : (setPc target s).pending = s.pending := rfl
@[simp] theorem setPc_memSize (target : Int) : memSize (setPc target s) = memSize s := rfl

@[simp] theorem advance_config (n : Int) : (advance n s).config = s.config := rfl
@[simp] theorem advance_allocated (n : Int) : (advance n s).allocated = s.allocated := rfl
@[simp] theorem advance_phase (n : Int) : (advance n s).phase = s.phase := rfl
@[simp] theorem advance_pc (n : Int) : (advance n s).pc = s.pc + n := rfl
@[simp] theorem advance_w (n : Int) : (advance n s).w = s.w := rfl
@[simp] theorem advance_mem (n : Int) : (advance n s).mem = s.mem := rfl
@[simp] theorem advance_outputs (n : Int) : (advance n s).outputs = s.outputs := rfl
@[simp] theorem advance_pending (n : Int) : (advance n s).pending = s.pending := rfl
@[simp] theorem advance_memSize (n : Int) : memSize (advance n s) = memSize s := rfl

@[simp] theorem setW_config (v : Byte) : (setW v s).config = s.config := rfl
@[simp] theorem setW_allocated (v : Byte) : (setW v s).allocated = s.allocated := rfl
@[simp] theorem setW_phase (v : Byte) : (setW v s).phase = s.phase := rfl
@[simp] theorem setW_pc (v : Byte) : (setW v s).pc = s.pc := rfl
@[simp] theorem setW_w (v : Byte) : (setW v s).w = v := rfl
@[simp] theorem setW_mem (v : Byte) : (setW v s).mem = s.mem := rfl
@[simp] theorem setW_outputs (v : Byte) : (setW v s).outputs = s.outputs := rfl
@[simp] theorem setW_pending (v : Byte) : (setW v s).pending = s.pending := rfl
@[simp] theorem setW_memSize (v : Byte) : memSize (setW v s) = memSize s := rfl

@[simp] theorem raise_config (sig : Signal) : (raise sig s).config = s.config := rfl
@[simp] theorem raise_allocated (sig : Signal) : (raise sig s).allocated = s.allocated := rfl
@[simp] theorem raise_phase (sig : Signal) : (raise sig s).phase = .idle := rfl
@[simp] theorem raise_pc (sig : Signal) : (raise sig s).pc = s.pc := rfl
@[simp] theorem raise_w (sig : Signal) : (raise sig s).w = s.w := rfl
@[simp] theorem raise_mem (sig : Signal) : (raise sig s).mem = s.mem := rfl
@[simp] theorem raise_outputs (sig : Signal) : (raise sig s).outputs = s.outputs ++ [.signal sig] := rfl
@[simp] theorem raise_pending (sig : Signal) : (raise sig s).pending = s.pending := rfl
@[simp] theorem raise_memSize (sig : Signal) : memSize (raise sig s) = memSize s := rfl

@[simp] theorem beginRun_config (start : Option Int) : (beginRun start s).config = s.config := rfl
@[simp] theorem beginRun_allocated (start : Option Int) : (beginRun start s).allocated = s.allocated := rfl
@[simp] theorem beginRun_phase (start : Option Int) : (beginRun start s).phase = .running := rfl
@[simp] theorem beginRun_pc (start : Option Int) : (beginRun start s).pc = start.getD s.pc := rfl
@[simp] theorem beginRun_w (start : Option Int) : (beginRun start s).w = s.w := rfl
@[simp] theorem beginRun_mem (start : Option Int) : (beginRun start s).mem = s.mem := rfl
@[simp] theorem beginRun_outputs (start : Option Int) : (beginRun start s).outputs = s.outputs := rfl
@[simp] theorem beginRun_pending (start : Option Int) : (beginRun start s).pending = s.pending := rfl
@[simp] theorem beginRun_memSize (start : Option Int) : memSize (beginRun start s) = memSize s := rfl

@[simp] theorem resetEngine_config : (resetEngine s).config = s.config := rfl
@[simp] theorem resetEngine_allocated : (resetEngine s).allocated = true := rfl
@[simp] theorem resetEngine_phase : (resetEngine s).phase = s.phase := rfl
@[simp] theorem resetEngine_pc : (resetEngine s).pc = 0 := rfl
@[simp] theorem resetEngine_w : (resetEngine s).w = 0 := rfl
@[simp] theorem resetEngine_mem : (resetEngine s).mem = [] := rfl
@[simp] theorem resetEngine_outputs : (resetEngine s).outputs = s.outputs := rfl
@[simp] theorem resetEngine_pending : (resetEngine s).pending = s.pending := rfl
@[simp] theorem resetEngine_memSize : memSize (resetEngine s) = memSize s := rfl

@[simp] theorem resetOf_config (cfg : Config) : (State.resetOf cfg).config = cfg := rfl
@[simp] theorem resetOf_allocated (cfg : Config) : (State.resetOf cfg).allocated = true := rfl
@[simp] theorem resetOf_phase (cfg : Config) : (State.resetOf cfg).phase = .idle := rfl
@[simp] theorem resetOf_pc (cfg : Config) : (State.resetOf cfg).pc = 0 := rfl
@[simp] theorem resetOf_w (cfg : Config) : (State.resetOf cfg).w = 0 := rfl
@[simp] theorem resetOf_mem (cfg : Config) : (State.resetOf cfg).mem = [] := rfl
@[simp] theorem resetOf_outputs (cfg : Config) : (State.resetOf cfg).outputs = [] := rfl
@[simp] theorem resetOf_pending (cfg : Config) : (State.resetOf cfg).pending = [] := rfl

@[simp] theorem memSize_a (h : s.config.variant = .a) : memSize s = 1024 := by simp [memSize, h, Variant.memSize]
@[simp] theorem memSize_b (h : s.config.variant = .b) : memSize s = 1536 := by simp [memSize, h, Variant.memSize]

end Sys2Proof.Machine
end

