-- ==== Sys2Proof/Laws/Ops.lean ====
section
/-!
SUPPORT. What each shared operation does, said once: the memory primitives, the operand forms and the arithmetic units.
-/

namespace Sys2Proof.Machine

open Sys2Proof

theorem memRead_of_inRange {a : Int} {s : State} (h : InRange a s) : memRead a s = Memory.get s.mem a.toNat := if_pos h

theorem memRead_of_not_inRange {a : Int} {s : State} (h : ¬ InRange a s) : memRead a s = 0 := if_neg h

@[simp] theorem memRead_emit (a : Int) (o : Output) (s : State) : memRead a (emit o s) = memRead a s := rfl
@[simp] theorem memRead_setPc (a t : Int) (s : State) : memRead a (setPc t s) = memRead a s := rfl
@[simp] theorem memRead_advance (a n : Int) (s : State) : memRead a (advance n s) = memRead a s := rfl
@[simp] theorem memRead_setW (a : Int) (v : Byte) (s : State) : memRead a (setW v s) = memRead a s := rfl
@[simp] theorem memRead_raise (a : Int) (sig : Signal) (s : State) : memRead a (raise sig s) = memRead a s := rfl
@[simp] theorem memRead_beginRun (a : Int) (st : Option Int) (s : State) : memRead a (beginRun st s) = memRead a s := rfl

/-- After `reset` every address reads 0. -/
@[simp] theorem memRead_resetEngine (a : Int) (s : State) : memRead a (resetEngine s) = 0 := by
  unfold memRead; split <;> rfl

@[simp] theorem memRead_resetOf (a : Int) (cfg : Config) : memRead a (State.resetOf cfg) = 0 := by
  unfold memRead; split <;> rfl

/-- The outputs a write raises: one redraw in the video region, none elsewhere. -/
def writeOutputs (a : Int) (v : Byte) (s : State) : List Output :=
  if InVideo a s then [.redraw (snapshot { s with mem := Memory.set a.toNat v s.mem })] else []

/-- An address of the video region is in range. -/
theorem InVideo.inRange {a : Int} {s : State} (h : InVideo a s) : InRange a s := by
  refine ⟨h.1, ?_⟩
  have := h.2
  simp only [memSize]
  cases hv : s.config.variant <;> simp_all [Variant.videoSize, Variant.memSize] <;> omega

theorem memWrite_of_inRange {a : Int} {v : Byte} {s : State} (h : InRange a s) :
    memWrite a v s = { s with mem := Memory.set a.toNat v s.mem, outputs := s.outputs ++ writeOutputs a v s } := by
  unfold memWrite writeOutputs
  rw [if_pos h]
  by_cases hv : InVideo a s
  · rw [if_pos hv, if_pos hv]
    rfl
  · rw [if_neg hv, if_neg hv, List.append_nil]

theorem memWrite_of_not_inRange {a : Int} {v : Byte} {s : State} (h : ¬ InRange a s) : memWrite a v s = s := if_neg h

section
variable (a : Int) (v : Byte) (s : State)

/-- Everything a write can do: nothing, out of range; the one cell and its redraw, in range. -/
theorem memWrite_cases :
    (¬ InRange a s ∧ memWrite a v s = s) ∨
    (InRange a s ∧
      memWrite a v s = { s with mem := Memory.set a.toNat v s.mem, outputs := s.outputs ++ writeOutputs a v s }) := by
  by_cases h : InRange a s
  · exact .inr ⟨h, memWrite_of_inRange h⟩
  · exact .inl ⟨h, memWrite_of_not_inRange h⟩

@[simp] theorem memWrite_config : (memWrite a v s).config = s.config := by
  rcases memWrite_cases a v s with ⟨_, h⟩ | ⟨_, h⟩ <;> rw [h]
@[simp] theorem memWrite_allocated : (memWrite a v s).allocated = s.allocated := by
  rcases memWrite_cases a v s with ⟨_, h⟩ | ⟨_, h⟩ <;> rw [h]
@[simp] theorem memWrite_phase : (memWrite a v s).phase = s.phase := by
  rcases memWrite_cases a v s with ⟨_, h⟩ | ⟨_, h⟩ <;> rw [h]
@[simp] theorem memWrite_pc : (memWrite a v s).pc = s.pc := by
  rcases memWrite_cases a v s with ⟨_, h⟩ | ⟨_, h⟩ <;> rw [h]
@[simp] theorem memWrite_w : (memWrite a v s).w = s.w := by
  rcases memWrite_cases a v s with ⟨_, h⟩ | ⟨_, h⟩ <;> rw [h]
@[simp] theorem memWrite_pending : (memWrite a v s).pending = s.pending := by
  rcases memWrite_cases a v s with ⟨_, h⟩ | ⟨_, h⟩ <;> rw [h]
@[simp] theorem memWrite_memSize : memSize (memWrite a v s) = memSize s := by simp [memSize]

/-- The output history grows by at most the one redraw. -/
theorem memWrite_outputs :
    (memWrite a v s).outputs = s.outputs ++ (if InRange a s then writeOutputs a v s else []) := by
  rcases memWrite_cases a v s with ⟨hr, h⟩ | ⟨hr, h⟩ <;> rw [h] <;> simp [hr]

theorem memWrite_mem :
    (memWrite a v s).mem = if InRange a s then Memory.set a.toNat v s.mem else s.mem := by
  rcases memWrite_cases a v s with ⟨hr, h⟩ | ⟨hr, h⟩ <;> rw [h] <;> simp [hr]

theorem memWrite_wf (h : Memory.wf s.mem = true) : Memory.wf (memWrite a v s).mem = true := by
  rw [memWrite_mem]; split
  · exact Memory.set_wf _ _ h
  · exact h

theorem memWrite_below (h : Memory.below (memSize s) s.mem = true) :
    Memory.below (memSize s) (memWrite a v s).mem = true := by
  rw [memWrite_mem]; split
  · rename_i hr
    exact Memory.set_below (by have := hr.2; have := hr.1; omega) _ h
  · exact h

end

/-- A write leaves every other address reading as before, in every state. -/
theorem memRead_memWrite_other {a b : Int} (h : b ≠ a) (v : Byte) (s : State) :
    memRead b (memWrite a v s) = memRead b s := by
  unfold memRead
  simp only [InRange, memWrite_memSize]
  split
  · rename_i hb
    rw [memWrite_mem]; split
    · rename_i ha
      exact Memory.get_set_other (by have := ha.1; have := hb.1; omega) v s.mem
    · rfl
  · rfl

/-- A read of the address written gives the byte written. -/
theorem memRead_memWrite_same {a : Int} {v : Byte} {s : State} (hr : InRange a s) (hw : Memory.wf s.mem = true) :
    memRead a (memWrite a v s) = v := by
  have hr' : InRange a (memWrite a v s) := by simpa [InRange] using hr
  rw [memRead_of_inRange hr', memWrite_mem, if_pos hr]
  exact Memory.get_set_same v hw

/-- The snapshot of a redraw has 1000 bytes. -/
@[simp] theorem snapshot_length (s : State) : (snapshot s).length = 1000 := Memory.slice_length _ _ _

/-- The byte at index `k` of a redraw's snapshot is cell `k`. -/
theorem getElem?_snapshot {k : Nat} (h : k < 1000) (s : State) : (snapshot s)[k]? = some (Memory.get s.mem k) := by
  rw [snapshot, Memory.getElem?_slice (n := Variant.b.videoSize) h, Nat.zero_add]

theorem aluAdd_eq (x y : Byte) : aluAdd x y = x + y := by
  apply BitVec.eq_of_toNat_eq; simp [aluAdd, BitVec.toNat_add]

theorem aluSub_eq (x y : Byte) : aluSub x y = x - y := by
  apply BitVec.eq_of_toInt_eq
  simp [aluSub, BitVec.toInt_sub, BitVec.toInt_ofInt]
  rw [BitVec.toInt_eq_toNat_bmod, BitVec.toInt_eq_toNat_bmod]
  simp [Int.sub_bmod_bmod, Int.bmod_sub_bmod]

/-- The sum in the spec's own words: `(x + y) mod 256`. -/
theorem aluAdd_eq_mod (x y : Byte) : aluAdd x y = BitVec.ofNat 8 ((x.toNat + y.toNat) % 256) := by
  apply BitVec.eq_of_toNat_eq; simp [aluAdd]

/-- The difference in the spec's own words: `(x - y) mod 256`. -/
theorem aluSub_eq_mod (x y : Byte) : aluSub x y = BitVec.ofInt 8 ((x.toNat - y.toNat : Int) % 256) := by
  apply BitVec.eq_of_toNat_eq; simp [aluSub]

theorem sext8_eq_toInt (b : Byte) : sext8 b = b.toInt := by
  unfold sext8; rw [BitVec.toInt_eq_toNat_cond]
  have := b.isLt
  split <;> split <;> omega

theorem sext8_range (b : Byte) : -128 ≤ sext8 b ∧ sext8 b ≤ 127 := by
  unfold sext8; have := b.isLt; split <;> omega

theorem addrVal_range (addr : Addr) : 0 ≤ addrVal addr ∧ addrVal addr ≤ 65535 := by
  unfold addrVal; have := addr.isLt; omega

end Sys2Proof.Machine
end

