-- ==== Sys2Proof/Laws/Exec.lean ====
section
/-!
SUPPORT. What an instruction, an iteration of the loop and a restore can do, said once: later proofs take these apart and do not unfold the
meanings again.
-/

namespace Sys2Proof.Machine

open Sys2Proof

theorem onVariant_same {v : Variant} {f : State → State} {s : State} (h : s.config.variant = v) :
    onVariant v f s = .next (f s) := by rw [onVariant, if_pos h]

theorem onVariant_other {v : Variant} {f : State → State} {s : State} (h : s.config.variant ≠ v) :
    onVariant v f s = .next (raise .invalidOpcode s) := by rw [onVariant, if_neg h]

/-- All an instruction may change: it goes on, with at most one byte written; or it ends the run with one signal. -/
structure ExecStep (s t : State) : Prop where
  config : t.config = s.config
  allocated : t.allocated = s.allocated
  pending : t.pending = s.pending
  w : s.config.variant = .a → t.w = s.w
  effect :
    (t.phase = s.phase ∧ t.mem = s.mem ∧ t.outputs = s.outputs) ∨
    (t.phase = s.phase ∧ ∃ a v, t.mem = (memWrite a v s).mem ∧ t.outputs = (memWrite a v s).outputs) ∨
    (t.phase = .idle ∧ t.mem = s.mem ∧ ∃ sig, t.outputs = s.outputs ++ [.signal sig])

theorem ExecStep.raise (sig : Signal) (s : State) : ExecStep s (Machine.raise sig s) :=
  ⟨rfl, rfl, rfl, fun _ => rfl, .inr (.inr ⟨rfl, rfl, sig, rfl⟩)⟩

theorem ExecStep.setPc (t : Int) (s : State) : ExecStep s (Machine.setPc t s) :=
  ⟨rfl, rfl, rfl, fun _ => rfl, .inl ⟨rfl, rfl, rfl⟩⟩

theorem ExecStep.write (a n : Int) (v : Byte) (s : State) : ExecStep s (advance n (memWrite a v s)) :=
  ⟨by simp, by simp, by simp, fun _ => by simp, .inr (.inl ⟨by simp, a, v, by simp, by simp⟩)⟩

theorem ExecStep.loadW (v : Byte) {s : State} (h : s.config.variant = .b) : ExecStep s (Machine.loadW v s) :=
  ⟨rfl, rfl, rfl, fun h' => by simp [h] at h', .inl ⟨rfl, rfl, rfl⟩⟩

theorem ExecStep.beq (c : Byte) (t : Int) (s : State) : ExecStep s (branchThenFall c t s) := by
  have hb : ∃ p, branchEq c t s = Machine.setPc p s := by
    unfold branchEq; split
    · exact ⟨_, rfl⟩
    · exact ⟨_, rfl⟩
  obtain ⟨p, hp⟩ := hb
  rw [branchThenFall, hp, beqFallThrough]
  split
  · exact ExecStep.setPc p s
  · exact ⟨rfl, rfl, rfl, fun _ => rfl, .inr (.inr ⟨rfl, rfl, _, rfl⟩)⟩

theorem onVariant_execStep {v : Variant} {f : State → State} {s : State} (h : s.config.variant = v → ExecStep s (f s)) :
    ∃ t, onVariant v f s = .next t ∧ ExecStep s t := by
  by_cases hv : s.config.variant = v
  · exact ⟨_, onVariant_same hv, h hv⟩
  · exact ⟨_, onVariant_other hv, ExecStep.raise _ s⟩

/-- Every instruction answers a next state, and changes no more than `ExecStep` says. -/
theorem exec_execStep (i : Instr) (s : State) : ∃ t, exec i s = .next t ∧ ExecStep s t := by
  cases i with
  | aAddm imm addr => exact onVariant_execStep fun _ => ExecStep.write _ _ _ s
  | aSubm imm addr => exact onVariant_execStep fun _ => ExecStep.write _ _ _ s
  | aJmp addr => exact onVariant_execStep fun _ => ExecStep.setPc _ s
  | aBra off => exact onVariant_execStep fun _ => ExecStep.setPc _ s
  | aHlt => exact ⟨_, rfl, ExecStep.raise _ s⟩
  | bLdi imm => exact onVariant_execStep fun h => ExecStep.loadW _ h
  | bStw addr => exact onVariant_execStep fun _ => ExecStep.write _ _ _ s
  | bAddi imm => exact onVariant_execStep fun h => ExecStep.loadW _ h
  | bSubi imm => exact onVariant_execStep fun h => ExecStep.loadW _ h
  | bJmp addr => exact onVariant_execStep fun _ => ExecStep.setPc _ s
  | bBeq cmpVal addr => exact onVariant_execStep fun _ => ExecStep.beq _ _ s
  | bHlt => exact ⟨_, rfl, ExecStep.raise _ s⟩

/-- The three ways an iteration of the loop goes. -/
theorem loopStep_cases (s : State) :
    ((memSize s : Int) ≤ s.pc ∧ loopStep s = .next (Machine.raise .outOfBounds s)) ∨
    (¬ (memSize s : Int) ≤ s.pc ∧ ∃ i rest, decode s.config.variant (fetchBytes s) = .ok (i, rest) ∧
      loopStep s = exec i s) ∨
    (¬ (memSize s : Int) ≤ s.pc ∧
      decode s.config.variant (fetchBytes s) = .error (.invalidOpcode (memRead s.pc s)) ∧
      loopStep s = .next (Machine.raise .invalidOpcode s)) := by
  by_cases hpc : (memSize s : Int) ≤ s.pc
  · exact .inl ⟨hpc, if_pos hpc⟩
  · refine .inr ?_
    rcases decode_four s.config.variant (memRead s.pc s) (memRead (s.pc + 1) s) (memRead (s.pc + 2) s)
      (memRead (s.pc + 3) s) with ⟨i, rest, h⟩ | h
    · refine .inl ⟨hpc, i, rest, h, ?_⟩
      rw [loopStep, if_neg hpc, fetchBytes, h]
    · refine .inr ⟨hpc, h, ?_⟩
      rw [loopStep, if_neg hpc, fetchBytes, h]

/-- Every iteration of the loop answers a next state, and changes no more than `ExecStep` says. -/
theorem loopStep_execStep (s : State) : ∃ t, loopStep s = .next t ∧ ExecStep s t := by
  rcases loopStep_cases s with ⟨_, h⟩ | ⟨_, i, rest, _, h⟩ | ⟨_, _, h⟩
  · exact ⟨_, h, ExecStep.raise _ s⟩
  · rw [h]; exact exec_execStep i s
  · exact ⟨_, h, ExecStep.raise _ s⟩

theorem step_running {s : State} (hp : s.phase = .running) (ha : s.allocated = true) : step s = loopStep s := by
  rw [step, hp]; simp [runningStep, ha]

theorem step_idle {s : State} (hp : s.phase = .idle) : step s = idleStep s := by
  rw [step, hp]

/-- The three things an idle step can be: nothing asked, an operation, or an operation before the first `reset`. -/
theorem idleStep_cases (s : State) :
    (s.pending = [] ∧ idleStep s = .next s) ∨
    (∃ op rest, s.pending = op :: rest ∧ (s.allocated || isReset op) = true ∧
      idleStep s = hostOp op { s with pending := rest }) ∨
    (∃ op rest, s.pending = op :: rest ∧ (s.allocated || isReset op) = false ∧
      idleStep s = .refused .beforeReset) := by
  cases hq : s.pending with
  | nil => exact .inl ⟨rfl, by simp [idleStep, hq]⟩
  | cons op rest =>
    refine .inr ?_
    cases ho : (s.allocated || isReset op) with
    | true => exact .inl ⟨op, rest, rfl, ho, by simp only [idleStep, hq, ho, if_true]⟩
    | false => exact .inr ⟨op, rest, rfl, ho, by simp only [idleStep, hq, ho]; rfl⟩

end Sys2Proof.Machine
end

