-- ==== Sys2Proof/Laws/Host.lean ====
section
/-!
SUPPORT. The output history under the shared operations, and what a restore can do, said once as an induction over its lines.
-/

namespace Sys2Proof.Machine

open Sys2Proof

@[simp] theorem signalsOf_append (x y : List Output) : signalsOf (x ++ y) = signalsOf x ++ signalsOf y := by
  induction x with
  | nil => rfl
  | cons o rest ih => cases o <;> simp [signalsOf, ih]

@[simp] theorem redrawsOf_append (x y : List Output) : redrawsOf (x ++ y) = redrawsOf x ++ redrawsOf y := by
  induction x with
  | nil => rfl
  | cons o rest ih => cases o <;> simp [redrawsOf, ih]

/-- A write returns no signal. -/
@[simp] theorem signalsOf_memWrite (a : Int) (v : Byte) (s : State) :
    signalsOf (memWrite a v s).outputs = signalsOf s.outputs := by
  rw [memWrite_outputs, writeOutputs, signalsOf_append]
  split
  · split <;> simp [signalsOf]
  · simp [signalsOf]

/-- A write adds to the redraws exactly the one it raises. -/
theorem redrawsOf_memWrite (a : Int) (v : Byte) (s : State) :
    redrawsOf (memWrite a v s).outputs =
      redrawsOf s.outputs ++
        (if InVideo a s then [snapshot { s with mem := Memory.set a.toNat v s.mem }] else []) := by
  rw [memWrite_outputs, writeOutputs, redrawsOf_append]
  by_cases hv : InVideo a s
  · rw [if_pos hv.inRange, if_pos hv, if_pos hv]
    rfl
  · rw [if_neg hv, if_neg hv]
    split <;> rfl

/-- What every line of a restore keeps, the restore keeps: it is a run of writes to `pc`, to `W` on VariantB and to memory, and one output. -/
theorem restoreFrom_induct {P : State → Prop} (hpc : ∀ v s, P s → P (setPc v s))
    (hw : ∀ v s, s.config.variant = .b → P s → P (setW v s)) (hc : ∀ a v s, P s → P (memWrite a v s))
    {n : Nat} {lines : List SaveLine} {s t : State} (h : restoreFrom n lines s = .next t) (hs : P s) :
    ∃ u code, t = emit (.restored code) u ∧ P u := by
  induction lines generalizing n s with
  | nil =>
    simp only [restoreFrom, Host.Outcome.next.injEq] at h
    exact ⟨s, 0, h.symm, hs⟩
  | cons l rest ih =>
    cases l with
    | pc v => exact ih (s := setPc v s) (by simpa only [restoreFrom] using h) (hpc v s hs)
    | w v =>
      simp only [restoreFrom] at h
      split at h
      · cases h
      · rename_i hv
        exact ih h (hw v s hv hs)
    | cell a v => exact ih (s := memWrite a v s) (by simpa only [restoreFrom] using h) (hc a v s hs)
    | malformed =>
      simp only [restoreFrom, Host.Outcome.next.injEq] at h
      exact ⟨s, n, h.symm, hs⟩

/-- Everything an idle step can do: nothing, or one operation on the state with that operation taken off the list. -/
theorem step_idle_cases {s t : State} (hi : s.phase = .idle) (h : step s = .next t) :
    (s.pending = [] ∧ t = s) ∨
    ∃ op rest, s.pending = op :: rest ∧ (s.allocated = true ∨ op = .reset) ∧
      hostOp op { s with pending := rest } = .next t := by
  rw [step_idle hi] at h
  rcases idleStep_cases s with ⟨hp, h'⟩ | ⟨op, rest, hp, ho, h'⟩ | ⟨op, rest, hp, _, h'⟩
  · rw [h', Host.Outcome.next.injEq] at h
    exact .inl ⟨hp, h.symm⟩
  · refine .inr ⟨op, rest, hp, ?_, h' ▸ h⟩
    rw [Bool.or_eq_true] at ho
    refine ho.imp id fun hr => ?_
    cases op <;> simp_all [isReset]
  · rw [h'] at h
    cases h

end Sys2Proof.Machine
end

