-- ==== Sys2Proof/Laws/PerInstr.lean ====
section
/-!
SUPPORT. What holds of every instruction as syntax, one lemma for each constructor: its encoding is as long as the tables of R76 and R77 say,
1 to 4 bytes.
-/

namespace Sys2Proof.Laws.EncodeLength

open Sys2Proof

/-- The encoding has the length the opcode map gives, between one and four bytes (R70, R71). -/
def Statement (i : Instr) : Prop :=
  (encode i).length = i.byteLength ∧ 1 ≤ (encode i).length ∧ (encode i).length ≤ 4

theorem aAddm (imm : Byte) (addr : Addr) : Statement (.aAddm imm addr) := by simp [Statement, encode, Instr.byteLength]
theorem aSubm (imm : Byte) (addr : Addr) : Statement (.aSubm imm addr) := by simp [Statement, encode, Instr.byteLength]
theorem aJmp (addr : Addr) : Statement (.aJmp addr) := by simp [Statement, encode, Instr.byteLength]
theorem aBra (off : Byte) : Statement (.aBra off) := by simp [Statement, encode, Instr.byteLength]
theorem aHlt : Statement .aHlt := by simp [Statement, encode, Instr.byteLength]
theorem bLdi (imm : Byte) : Statement (.bLdi imm) := by simp [Statement, encode, Instr.byteLength]
theorem bStw (addr : Addr) : Statement (.bStw addr) := by simp [Statement, encode, Instr.byteLength]
theorem bAddi (imm : Byte) : Statement (.bAddi imm) := by simp [Statement, encode, Instr.byteLength]
theorem bSubi (imm : Byte) : Statement (.bSubi imm) := by simp [Statement, encode, Instr.byteLength]
theorem bJmp (addr : Addr) : Statement (.bJmp addr) := by simp [Statement, encode, Instr.byteLength]
theorem bBeq (cmpVal : Byte) (addr : Addr) : Statement (.bBeq cmpVal addr) := by simp [Statement, encode, Instr.byteLength]
theorem bHlt : Statement .bHlt := by simp [Statement, encode, Instr.byteLength]

end Sys2Proof.Laws.EncodeLength
end

