-- ==== Sys2Proof/Tests/Slice0.lean ====
section
/-!
SUPPORT. Tests of the model against words and vectors written out from the spec (spec/30_encoding.md R76, R77; spec/95_test_vectors.md), and for
each statement of Certificates/Slice0/Obligations.lean that has hypotheses a concrete state or operand that meets them.
-/

namespace Sys2Proof.Tests

open Sys2Proof Sys2Proof.Machine

/-- A run in progress at `pc` with the given `W` and non-zero cells. -/
def running (cfg : Config) (pc : Int) (w : Byte) (mem : List Host.Cell) : State :=
  { State.resetOf cfg with phase := .running, pc := pc, w := w, mem := mem }

/-- An idle engine of which the host asks `ops`. -/
def asked (cfg : Config) (ops : List HostOp) : State := { State.resetOf cfg with pending := ops }

/-- The state a step answers, if it answers one. -/
def after : Result → Option State
  | .next t => some t
  | .fault _ => none
  | .refused _ => none

/-- `pc`, `W`, the byte at `a` and whether a run is in progress, after a step. -/
def see (a : Int) (r : Result) : Option (Int × Byte × Byte × Phase) :=
  (after r).map fun t => (t.pc, t.w, memRead a t, t.phase)

abbrev cfgA : Config := Config.hardwareA
abbrev cfgB : Config := Config.hardwareB
abbrev cfgFixed : Config := { variant := .b, beqFixed := true }

/-! WellFormed: an instruction of the other variant is refused by the check (R78). -/

theorem test_wellFormed_a : (Instr.aAddm 0x05 0x0010).WellFormed .a := by decide
theorem test_wellFormed_refuses_a_on_b : ¬ (Instr.aAddm 0x05 0x0010).WellFormed .b := by decide
theorem test_wellFormed_refuses_b_on_a : ¬ (Instr.bLdi 0x05).WellFormed .a := by decide

/-! Decoding: each row's word written out from R71, R76, R77. -/

theorem test_decode_aAddm : decode .a [0b00001010, 0x05, 0x01, 0x10] = .ok (.aAddm 0x05 0x0110, []) := by decide
theorem test_decode_aSubm : decode .a [0b00010011, 0xFE, 0x03, 0xFF] = .ok (.aSubm 0xFE 0x03FF, []) := by decide
theorem test_decode_aJmp : decode .a [0b00010110, 0x04, 0x00, 0x77] = .ok (.aJmp 0x0400, [0x77]) := by decide
theorem test_decode_aBra : decode .a [0b00010111, 0xFE] = .ok (.aBra 0xFE, []) := by decide
theorem test_decode_aHlt : decode .a [0b11111111] = .ok (.aHlt, []) := by decide
theorem test_decode_bLdi : decode .b [0b01010000, 0xAB] = .ok (.bLdi 0xAB, []) := by decide
theorem test_decode_bStw : decode .b [0b01010001, 0x03, 0xE7] = .ok (.bStw 0x03E7, []) := by decide
theorem test_decode_bAddi : decode .b [0b01011010, 0x03] = .ok (.bAddi 0x03, []) := by decide
theorem test_decode_bSubi : decode .b [0b01011011, 0x29] = .ok (.bSubi 0x29, []) := by decide
theorem test_decode_bJmp : decode .b [0b01101110, 0x04, 0x10] = .ok (.bJmp 0x0410, []) := by decide
theorem test_decode_bBeq : decode .b [0b01110000, 0x07, 0x04, 0x0B] = .ok (.bBeq 0x07 0x040B, []) := by decide
theorem test_decode_bHlt : decode .b [0b11111111] = .ok (.bHlt, []) := by decide
theorem test_decode_rejects_zero : decode .a [0, 0, 0, 0] = .error (.invalidOpcode 0) := by decide
theorem test_decode_rejects_other_variant : decode .a [0x50, 7, 0, 0] = .error (.invalidOpcode 0x50) := by decide
theorem test_decode_truncated : decode .b [0x70, 0x07] = .error .truncated := by decide
theorem test_encode_bBeq : encode (.bBeq 0x07 0x040B) = [0x70, 0x07, 0x04, 0x0B] := by decide

/-- Table bits: byte 0 lowest, so `0A 05 01 10` is 0x1001050A. -/
theorem test_tableWord_aAddm : decodeTableWord 32 0x1001050A = some (.aAddm 0x05 0x0110) := by decide
theorem test_tableWord_bStw : decodeTableWord 24 0xE70351 = some (.bStw 0x03E7) := by decide
theorem test_tableWord_none : decodeTableWord 8 0x00 = none := by decide
theorem test_fetchWord_a :
    see 0x110 (step (State.reset.withFetchWord 32 0x1001050A)) = some (4, 0, 5, .running) := by decide
theorem test_fetchWord_b :
    (after (step (State.reset.withFetchWord 24 0x000051))).map (fun t => (t.pc, (redrawsOf t.outputs).length)) =
      some (3, 1) := by decide

/-! Single steps from spec/95_test_vectors.md; the vector is named in each test. -/

/-- A1: wrap FF + 01. -/
theorem test_aAddm_wraps :
    see 0x40 (step (running cfgA 0 0 [(0, 0x0A), (1, 0x01), (3, 0x40), (4, 0xFF), (0x40, 0xFF)])) =
      some (4, 0, 0x00, .running) := by decide
/-- A8: adds to its own `imm`, using the old one. -/
theorem test_aAddm_own_operand :
    see 1 (step (running cfgA 0 0 [(0, 0x0A), (1, 0x05), (3, 0x01), (4, 0xFF)])) = some (4, 0, 0x0A, .running) := by
  decide
/-- A11: wrap 00 - 01. -/
theorem test_aSubm_wraps :
    see 0x40 (step (running cfgA 0 0 [(0, 0x13), (1, 0x01), (3, 0x40), (4, 0xFF)])) = some (4, 0, 0xFF, .running) := by
  decide
/-- A13: address 1024, the value is dropped. -/
theorem test_aSubm_out_of_range :
    (after (step (running cfgA 0 0 [(0, 0x13), (1, 0x07), (2, 0x04), (4, 0xFF)]))).map (fun t => (t.pc, t.mem)) =
      some (4, [(0, 0x13), (1, 0x07), (2, 0x04), (4, 0xFF)]) := by decide
/-- A20. -/
theorem test_aJmp : see 0 (step (running cfgA 0 0 [(0, 0x16), (2, 0x08), (8, 0xFF)])) = some (8, 0, 0x16, .running) := by
  decide
/-- A25: the low address byte lies beyond the end. -/
theorem test_aJmp_at_end : see 0 (step (running cfgA 1022 0 [(1022, 0x16), (1023, 0x03)])) = some (0x300, 0, 0, .running) := by
  decide
/-- S5: from 10 to 8. -/
theorem test_aBra_back : see 0 (step (running cfgA 10 0 [(10, 0x17), (11, 0xFE)])) = some (8, 0, 0, .running) := by decide
/-- A31: offset -128 at 0. -/
theorem test_aBra_negative : see 0 (step (running cfgA 0 0 [(0, 0x17), (1, 0x80)])) = some (-128, 0, 0x17, .running) := by
  decide
/-- L9: the halt stays at its own byte. -/
theorem test_aHlt :
    (after (step (running cfgA 0 0 [(0, 0xFF)]))).map (fun t => (t.pc, t.phase, t.outputs)) =
      some (0, .idle, [.signal .halted]) := by decide
/-- B1. -/
theorem test_bLdi : see 0 (step (running cfgB 0x400 0 [(0x400, 0x50), (0x401, 0xAB)])) = some (0x402, 0xAB, 0, .running) := by
  decide
/-- B11: the immediate lies beyond the end. -/
theorem test_bLdi_at_end : see 0 (step (running cfgB 1535 0x55 [(1535, 0x50)])) = some (1537, 0, 0, .running) := by decide
/-- B21: the last video cell, one redraw. -/
theorem test_bStw_video :
    (after (step (running cfgB 0x400 0x41 [(0x400, 0x51), (0x401, 0x03), (0x402, 0xE7)]))).map
      (fun t => (t.pc, memRead 999 t, (redrawsOf t.outputs).length)) = some (0x403, 0x41, 1) := by decide
/-- B22: the first cell outside, no redraw. -/
theorem test_bStw_plain :
    (after (step (running cfgB 0x400 0x41 [(0x400, 0x51), (0x401, 0x03), (0x402, 0xE8)]))).map
      (fun t => (t.pc, memRead 1000 t, t.outputs)) = some (0x403, 0x41, []) := by decide
/-- B3. -/
theorem test_bAddi_wraps : see 0 (step (running cfgB 0x400 0xFF [(0x400, 0x5A), (0x401, 0x01)])) =
    some (0x402, 0x00, 0, .running) := by decide
/-- B12: the immediate lies beyond the end. -/
theorem test_bAddi_at_end : see 0 (step (running cfgB 1535 0x55 [(1535, 0x5A)])) = some (1537, 0x55, 0, .running) := by
  decide
/-- B6. -/
theorem test_bSubi : see 0 (step (running cfgB 0x400 0x0A [(0x400, 0x5B), (0x401, 0x03)])) =
    some (0x402, 0x07, 0, .running) := by decide
/-- B7. -/
theorem test_bSubi_wraps : see 0 (step (running cfgB 0x400 0x00 [(0x400, 0x5B), (0x401, 0x01)])) =
    some (0x402, 0xFF, 0, .running) := by decide
/-- B40. -/
theorem test_bJmp : see 0 (step (running cfgB 0x400 0 [(0x400, 0x6E), (0x401, 0x04), (0x402, 0x10)])) =
    some (0x410, 0, 0, .running) := by decide
/-- B41: the target is not checked. -/
theorem test_bJmp_out : see 0 (step (running cfgB 0x400 0 [(0x400, 0x6E), (0x401, 0x06)])) = some (1536, 0, 0, .running) := by
  decide
/-- B44: taken, legacy. -/
theorem test_bBeq_taken :
    (after (step (running cfgB 0x402 7 [(0x402, 0x70), (0x403, 7), (0x404, 0x04), (0x405, 0x10)]))).map
      (fun t => (t.pc, t.w, t.phase, t.outputs)) = some (0x410, 7, .idle, [.signal .invalidOpcode]) := by decide
/-- B46 and B47: not taken; legacy ends the run, fixed goes on. -/
theorem test_bBeq_not_taken :
    see 0 (step (running cfgB 0x402 7 [(0x402, 0x70), (0x403, 8), (0x404, 0x04), (0x405, 0x10)])) =
        some (0x406, 7, 0, .idle) ∧
      see 0 (step (running cfgFixed 0x402 7 [(0x402, 0x70), (0x403, 8), (0x404, 0x04), (0x405, 0x10)])) =
        some (0x406, 7, 0, .running) := by decide
/-- S6, its last step. -/
theorem test_bHlt :
    (after (step (running cfgB 4 0x0A [(0, 0x50), (4, 0xFF)]))).map (fun t => (t.pc, t.w, t.outputs)) =
      some (4, 0x0A, [.signal .halted]) := by decide
/-- L1: cleared memory is the invalid opcode 0. -/
theorem test_invalid_zero :
    (after (step (running cfgA 0 0 []))).map (fun t => (t.pc, t.outputs)) = some (0, [.signal .invalidOpcode]) := by decide
/-- L3, L7: past the end. -/
theorem test_out_of_bounds :
    (after (step (running cfgA 1024 0 []))).map (fun t => (t.pc, t.outputs)) = some (1024, [.signal .outOfBounds]) ∧
      (after (step (running cfgB 1536 0 []))).map (fun t => (t.pc, t.outputs)) = some (1536, [.signal .outOfBounds]) := by
  decide
/-- L4, L8: the last cell is in bounds. -/
theorem test_last_cell_in_bounds :
    (after (step (running cfgA 1023 0 []))).map (fun t => t.outputs) = some [.signal .invalidOpcode] ∧
      (after (step (running cfgB 1535 0 []))).map (fun t => t.outputs) = some [.signal .invalidOpcode] := by decide
/-- L5: a negative `pc` is an invalid opcode. -/
theorem test_negative_pc :
    (after (step (running cfgA (-1) 0 []))).map (fun t => (t.pc, t.outputs)) = some (-1, [.signal .invalidOpcode]) := by
  decide
/-- L12. -/
theorem test_peek_outside :
    (after (step (asked cfgA [.peek 1024]))).map (fun t => t.outputs) = some [.peeked 0] := by decide
/-- L15, at a lower address: one redraw, whose snapshot is taken after the write. -/
theorem test_poke_snapshot :
    (after (step { asked cfgB [.poke 5 0x42] with mem := [(0, 0x41)] })).map
      (fun t => (redrawsOf t.outputs).map fun s => (s[0]?, s[4]?, s[5]?)) =
      some [(some 0x41, some 0x00, some 0x42)] := by decide
/-- L15: the last video cell redraws. -/
theorem test_poke_last_video :
    (after (step (asked cfgB [.poke 999 0x42]))).map (fun t => (t.mem, (redrawsOf t.outputs).length)) =
      some ([(999, 0x42)], 1) := by decide
/-- L15: no redraw at 1000, 1536 and -1, and nothing stored outside. -/
theorem test_poke_plain :
    (after (step (asked cfgB [.poke 1000 0x43]))).map (fun t => (t.mem, t.outputs)) = some ([(1000, 0x43)], []) ∧
      (after (step (asked cfgB [.poke 1536 0x45]))).map (fun t => (t.mem, t.outputs)) = some ([], []) ∧
      (after (step (asked cfgB [.poke (-1) 0x46]))).map (fun t => (t.mem, t.outputs)) = some ([], []) := by decide
/-- L16: reset clears everything without a redraw. -/
theorem test_reset :
    (after (step { asked cfgB [.reset] with mem := [(0, 0x41), (1535, 0x44)], pc := 7, w := 9 })).map
      (fun t => (t.pc, t.w, t.mem, t.outputs)) = some (0, 0, [], []) := by decide
/-- S9: the two-line save `PC=4`, `W=10`. -/
theorem test_restore :
    (after (step (asked cfgB [.deserializeState [.pc 4, .w 10]]))).map (fun t => (t.pc, t.w, t.outputs)) =
      some (4, 10, [.restored 0]) := by decide
/-- S9: a malformed first line reports line 1. -/
theorem test_restore_malformed :
    (after (step (asked cfgB [.deserializeState [.malformed]]))).map (fun t => t.outputs) = some [.restored 1] := by decide
/-- R14: zero cells are not saved. -/
theorem test_save :
    (after (step { asked cfgA [.serializeState] with mem := [(3, 7)], pc := 5 })).map (fun t => t.outputs) =
      some [.saved [.pc 5, .cell 3 7]] := by decide
/-- P6: (r, c) = (1, 0) is byte 40; the blank of byte 0 is a space. -/
theorem test_screen :
    screenCell (Memory.slice [(0x28, 0x41)] 0 41) 1 0 = 0x41 ∧ screenCell (Memory.slice [] 0 41) 0 3 = 0x20 := by
  decide
/-- R58: the accesses of A.ADDM at 0 with address 0x40. -/
theorem test_grants :
    stepGrants (running cfgA 0 0 [(0, 0x0A), (1, 0x01), (3, 0x40)]) =
      [.opcodeFetch 0, .operandFetch 1, .operandFetch 2, .operandFetch 3, .dataRead 0x40, .dataWrite 0x40] := by decide

/-! Witnesses: for every statement with hypotheses, a state and operands that meet them, at the boundaries where it has clauses. -/

theorem reset_memory_wf : Memory.wf State.reset.mem = true := by decide

/-- A halt about to be fetched, and the state after it. -/
def atHalt : State := running cfgA 0 0 [(0, 0xFF)]

/-- A B.STW to the first and the last video cell, the first and the last plain cell, and the first address outside. -/
def atStw (hi lo : Byte) : State := running cfgB 0x400 0x41 [(0x400, 0x51), (0x401, hi), (0x402, lo)]

/-- A B.BEQ comparing with 7, on a legacy or fixed engine. -/
def atBeq (cfg : Config) (w : Byte) : State :=
  { running cfg 0x402 w [(0x402, 0x70), (0x403, 7), (0x404, 0x04), (0x405, 0x10)] with pending := [.fetchExecute none] }

/-! R58: B.STW's accesses, with the redraw below 1000 (R52) and without. -/

theorem test_grants_bStw_video : stepGrants (atStw 0x03 0xE7) =
    [.opcodeFetch 0x400, .operandFetch 0x401, .operandFetch 0x402, .dataWrite 999, .snapshotRead] := by decide
theorem test_grants_bStw_plain : stepGrants (atStw 0x03 0xE8) =
    [.opcodeFetch 0x400, .operandFetch 0x401, .operandFetch 0x402, .dataWrite 1000] := by decide

theorem running_inv {cfg : Config} {pc : Int} {mem : List Host.Cell} (h : Memory.wf mem = true)
    (hb : Memory.below cfg.variant.memSize mem = true) : (running cfg pc 0 mem).Inv :=
  ⟨h, hb, fun _ => rfl, fun _ => rfl, by simp [running], by simp [running]⟩

theorem test_witness_ResetLeavesTheResetState :
    ∃ (s : State) (a : Int), s.config.variant = .b ∧ 0 ≤ a ∧ a < memSize s ∧ a = 1535 :=
  ⟨atStw 0 0, 1535, by decide⟩
theorem test_witness_HostResetClearsTheEngine :
    ∃ (s : State) (rest : List HostOp), s.allocated = false ∧ s.phase = .idle ∧ s.pending = .reset :: rest :=
  ⟨{ State.constructed cfgB with pending := [.reset] }, [], by decide⟩
theorem test_witness_ResetTwiceIsResetOnceWithoutRedraw :
    ∃ (s : State) (rest : List HostOp), s.phase = .idle ∧ s.pending = .reset :: .reset :: rest :=
  ⟨asked cfgB [.reset, .reset], [], by decide⟩
theorem test_witness_EveryStepKeepsInvariant : ∃ s t : State, s.Inv ∧ step s = .next t :=
  ⟨atHalt, raise .halted atHalt, running_inv (by decide) (by decide), rfl⟩
theorem test_witness_RunKeepsPcInProgramRange_inside :
    ∃ s t : State, s.phase = .running ∧ step s = .next t ∧ s.PcInProgramRange ∧ t.pc = -128 :=
  ⟨running cfgA 0 0 [(0, 0x17), (1, 0x80)], _, rfl, rfl, by unfold State.PcInProgramRange; decide, by decide⟩
theorem test_witness_RunKeepsPcInProgramRange_outside :
    ∃ s t : State, s.phase = .running ∧ step s = .next t ∧ ¬ InRange s.pc s ∧ s.pc = 1024 :=
  ⟨running cfgA 1024 0 [], _, rfl, rfl, by decide, rfl⟩
theorem test_witness_ConfigurationNeverChanges : ∃ s t : State, step s = .next t ∧ s.allocated = true :=
  ⟨atHalt, raise .halted atHalt, rfl, rfl⟩
theorem test_witness_RunEndsWithExactlyOneSignal :
    (∃ s t : State, step s = .next t ∧ s.phase = .running ∧ t.phase = .running) ∧
    (∃ s t : State, step s = .next t ∧ s.phase = .running ∧ t.phase = .idle) ∧
    ∃ s t : State, step s = .next t ∧ s.phase = .idle :=
  ⟨⟨running cfgA 0 0 [(0, 0x17)], _, rfl, rfl, rfl⟩, ⟨atHalt, _, rfl, rfl, rfl⟩, ⟨asked cfgB [.poke 0 1], _, rfl, rfl⟩⟩
theorem test_witness_RunningStepAlwaysAnswers : ∃ s : State, s.phase = .running ∧ s.allocated = true := ⟨atHalt, by decide⟩
theorem test_witness_HostHasNoMoveDuringRun : ∃ s : State, s.phase = .running ∧ s.pending ≠ [] := ⟨atBeq cfgB 7, by decide⟩
theorem test_witness_OnlyVideoStoreRedrawsInRun_redraw :
    ∃ s t : State, s.phase = .running ∧ step s = .next t ∧ s.Fetches .b 0x51 ∧ operandAddr (s.pc + 1) s = 999 :=
  ⟨atStw 0x03 0xE7, _, rfl, rfl, by decide, by decide⟩
theorem test_witness_OnlyVideoStoreRedrawsInRun_none :
    ∃ s t : State, s.phase = .running ∧ step s = .next t ∧ s.Fetches .b 0x51 ∧ operandAddr (s.pc + 1) s = 1000 :=
  ⟨atStw 0x03 0xE8, _, rfl, rfl, by decide, by decide⟩
theorem test_witness_MemReadIsBoundsChecked :
    ∃ s : State, s.config.variant = .b ∧ memRead 1535 { s with mem := [(1535, 9)] } = 9 ∧
      memRead 1536 { s with mem := [(1536, 9)] } = 0 ∧ memRead (-1) s = 0 :=
  ⟨State.resetOf cfgB, by decide⟩
theorem test_witness_WriteSetsOneCellOrNothing :
    ∃ s : State, Memory.wf s.mem = true ∧ (0 ≤ (1023 : Int) ∧ (1023 : Int) < memSize s) ∧ (memSize s : Int) ≤ 1024 :=
  ⟨State.reset, by decide⟩
theorem test_witness_VideoWriteRedrawsWithSnapshot :
    (∃ (s : State) (a : Int), s.config.variant = .b ∧ 0 ≤ a ∧ a < 1000 ∧ a = 999) ∧
    ∃ (s : State) (a : Int), ¬ (s.config.variant = .b ∧ 0 ≤ a ∧ a < 1000) ∧ a = 1000 :=
  ⟨⟨atStw 0 0, 999, by decide⟩, ⟨atStw 0 0, 1000, by decide⟩⟩
theorem test_witness_StoredByteIsFetchedNext :
    ∃ s : State, Memory.wf s.mem = true ∧ s.Fetches .b 0x51 ∧ operandAddr (s.pc + 1) s = s.pc + 3 ∧ s.pc + 3 < 1536 :=
  ⟨atStw 0x04 0x03, by decide⟩
theorem test_witness_DecodeInvertsEncode : ∃ (v : Variant) (i : Instr), i.WellFormed v ∧ i = .bBeq 0xFF 0xFFFF :=
  ⟨.b, .bBeq 0xFF 0xFFFF, by decide⟩
theorem test_witness_EncodeInvertsDecode :
    ∃ (v : Variant) (bytes rest : List Byte) (i : Instr), decode v bytes = .ok (i, rest) :=
  ⟨.a, [0x17, 0xFE, 1], [1], .aBra 0xFE, by decide⟩
theorem test_witness_OpcodesOutsideTheMapAreRejected : (0x70 : Byte) ∈ opcodesOf .b ∧ (0x70 : Byte) ∉ opcodesOf .a := by
  decide
theorem test_witness_OpcodeMapsShareOnlyHalt :
    ∃ (op : Byte) (i j : Instr), decode .a [op] = .ok (i, []) ∧ decode .b [op] = .ok (j, []) :=
  ⟨0xFF, .aHlt, .bHlt, by decide⟩
/-- An engine about to fetch `op` at `pc`, with `last` in the byte after it. -/
def atEdge (cfg : Config) (pc : Nat) (op last : Byte) : State := running cfg pc 9 [(pc, op), (pc + 1, last)]

theorem test_witness_OperandBytesBeyondEndReadZero :
    (∃ (s : State) (n : Nat) (i : Instr) (rest : List Byte), s.Fetches .b 0x70 ∧ 1 ≤ n ∧ n ≤ 4 ∧ s.pc + n = memSize s ∧
      decode .b (((List.range n).map fun k : Nat => memRead (s.pc + k) s) ++ List.replicate (4 - n) 0) = .ok (i, rest)) ∧
    (∀ op ∈ [0x0A, 0x13], ∃ s : State, s.Fetches .a op ∧ s.pc = 1022) ∧
    (∀ op ∈ [0x0A, 0x13, 0x16, 0x17], ∃ s : State, s.Fetches .a op ∧ s.pc = 1023) ∧
    (∃ s : State, s.Fetches .b 0x51 ∧ s.pc = 1534) ∧
    (∀ op ∈ [0x50, 0x51, 0x5A, 0x5B, 0x6E], ∃ s : State, s.Fetches .b op ∧ s.pc = 1535) ∧
    (∃ s : State, s.Fetches .b 0x70 ∧ s.pc = 1535 ∧ s.config.beqFixed = true) ∧
    ∃ s : State, s.Fetches .b 0x70 ∧ s.pc = 1535 ∧ s.config.beqFixed = false :=
  ⟨⟨atEdge cfgB 1534 0x70 7, 2, .bBeq 7 0, [], by decide⟩,
    by simp only [List.forall_mem_cons]; exact ⟨⟨atEdge cfgA 1022 0x0A 5, by decide⟩, ⟨atEdge cfgA 1022 0x13 5, by decide⟩, by simp⟩,
    by
      simp only [List.forall_mem_cons]
      exact ⟨⟨running cfgA 1023 0 [(1023, 0x0A)], by decide⟩, ⟨running cfgA 1023 0 [(1023, 0x13)], by decide⟩,
        ⟨running cfgA 1023 0 [(1023, 0x16)], by decide⟩, ⟨running cfgA 1023 0 [(1023, 0x17)], by decide⟩, by simp⟩,
    ⟨atEdge cfgB 1534 0x51 3, by decide⟩,
    by
      simp only [List.forall_mem_cons]
      exact ⟨⟨running cfgB 1535 9 [(1535, 0x50)], by decide⟩, ⟨running cfgB 1535 9 [(1535, 0x51)], by decide⟩,
        ⟨running cfgB 1535 9 [(1535, 0x5A)], by decide⟩, ⟨running cfgB 1535 9 [(1535, 0x5B)], by decide⟩,
        ⟨running cfgB 1535 9 [(1535, 0x6E)], by decide⟩, by simp⟩,
    ⟨running cfgFixed 1535 9 [(1535, 0x70)], by decide⟩, ⟨running cfgB 1535 9 [(1535, 0x70)], by decide⟩⟩
theorem test_witness_AddmStepAddsToMemory : ∃ s : State, s.Fetches .a 0x0A ∧ operandAddr (s.pc + 2) s = 1023 :=
  ⟨running cfgA 0 0 [(0, 0x0A), (1, 9), (2, 0x03), (3, 0xFF)], by decide⟩
theorem test_witness_SubmStepSubtractsFromMemory : ∃ s : State, s.Fetches .a 0x13 ∧ operandAddr (s.pc + 2) s = 1024 :=
  ⟨running cfgA 0 0 [(0, 0x13), (1, 9), (2, 0x04)], by decide⟩
theorem test_witness_AJmpStepJumps : ∃ s : State, s.Fetches .a 0x16 := ⟨running cfgA 0 0 [(0, 0x16)], by decide⟩
theorem test_witness_BraStepBranchesFromItsOwnAddress :
    (∃ s : State, s.Fetches .a 0x17 ∧ (memRead (s.pc + 1) s).toNat = 127) ∧
    ∃ s : State, s.Fetches .a 0x17 ∧ (memRead (s.pc + 1) s).toNat = 128 :=
  ⟨⟨running cfgA 0 0 [(0, 0x17), (1, 0x7F)], by decide⟩, ⟨running cfgA 0 0 [(0, 0x17), (1, 0x80)], by decide⟩⟩
theorem test_witness_HaltSentinelEndsTheRun :
    (∃ s : State, s.Fetches .a 0xFF) ∧ ∃ s : State, s.Fetches .b 0xFF :=
  ⟨⟨atHalt, by decide⟩, ⟨running cfgB 1535 0 [(1535, 0xFF)], by decide⟩⟩
theorem test_witness_LdiStepLoadsW : ∃ s : State, s.Fetches .b 0x50 := ⟨running cfgB 0 0 [(0, 0x50)], by decide⟩
theorem test_witness_StwStepStoresW :
    (∃ s : State, Memory.wf s.mem = true ∧ s.Fetches .b 0x51 ∧ operandAddr (s.pc + 1) s = 999) ∧
    (∃ s : State, Memory.wf s.mem = true ∧ s.Fetches .b 0x51 ∧ operandAddr (s.pc + 1) s = 1000) ∧
    (∃ s : State, Memory.wf s.mem = true ∧ s.Fetches .b 0x51 ∧ operandAddr (s.pc + 1) s = 1535) ∧
    ∃ s : State, Memory.wf s.mem = true ∧ s.Fetches .b 0x51 ∧ operandAddr (s.pc + 1) s = 1536 :=
  ⟨⟨atStw 0x03 0xE7, by decide⟩, ⟨atStw 0x03 0xE8, by decide⟩, ⟨atStw 0x05 0xFF, by decide⟩,
    ⟨running cfgB 0x400 0x41 [(0x400, 0x51), (0x401, 0x06)], by decide⟩⟩
theorem test_witness_AddiStepAddsToW : ∃ s : State, s.Fetches .b 0x5A := ⟨running cfgB 0 0xFF [(0, 0x5A), (1, 1)], by decide⟩
theorem test_witness_SubiStepSubtractsFromW : ∃ s : State, s.Fetches .b 0x5B := ⟨running cfgB 0 0 [(0, 0x5B), (1, 1)], by decide⟩
theorem test_witness_BJmpStepJumps : ∃ s : State, s.Fetches .b 0x6E := ⟨running cfgB 0 0 [(0, 0x6E)], by decide⟩
theorem test_witness_BeqStepDecidesTheBranch :
    (∃ s : State, s.Fetches .b 0x70 ∧ memRead (s.pc + 1) s = s.w) ∧
    ∃ s : State, s.Fetches .b 0x70 ∧ memRead (s.pc + 1) s ≠ s.w :=
  ⟨⟨atBeq cfgB 7, by decide⟩, ⟨atBeq cfgB 8, by decide⟩⟩
theorem test_witness_BeqStepFallsIntoDefaultArm :
    (∃ s : State, s.Fetches .b 0x70 ∧ s.config.beqFixed = false) ∧ ∃ s : State, s.Fetches .b 0x70 ∧ s.config.beqFixed = true :=
  ⟨⟨atBeq cfgB 7, by decide⟩, ⟨atBeq cfgFixed 7, by decide⟩⟩
theorem test_witness_UnknownOpcodeEndsTheRun :
    ∃ (s : State) (v : Variant) (op : Byte), s.Fetches v op ∧ op ∉ opcodesOf v :=
  ⟨running cfgB 0 0 [(0, 0x0A)], .b, 0x0A, by decide⟩
theorem test_witness_FetchPastTheEndEndsTheRun :
    (∃ s : State, s.phase = .running ∧ s.allocated = true ∧ s.config.variant = .a ∧ s.pc = 1024) ∧
    ∃ s : State, s.phase = .running ∧ s.allocated = true ∧ s.config.variant = .b ∧ s.pc = 1536 :=
  ⟨⟨running cfgA 1024 0 [], by decide⟩, ⟨running cfgB 1536 0 [], by decide⟩⟩
theorem test_witness_NegativePcIsInvalidOpcode : ∃ s : State, s.phase = .running ∧ s.allocated = true ∧ s.pc < 0 :=
  ⟨running cfgA (-1) 0 [], by decide⟩
theorem test_witness_StepRunsTheDecodedInstruction :
    ∃ (s : State) (i : Instr) (rest : List Byte), s.phase = .running ∧ s.allocated = true ∧ s.pc < memSize s ∧
      decode s.config.variant
        [memRead s.pc s, memRead (s.pc + 1) s, memRead (s.pc + 2) s, memRead (s.pc + 3) s] = .ok (i, rest) :=
  ⟨atBeq cfgB 7, .bBeq 7 0x0410, [], by decide⟩
theorem test_witness_MemoryArithmeticCompletesWithFrame :
    ∃ (s : State) (addr addr' : Addr), s.config.variant = .a ∧ Memory.wf s.mem = true ∧ addr.toNat = 1023 ∧ addr'.toNat = 1024 :=
  ⟨State.reset, 0x03FF, 0x0400, by decide⟩
theorem test_witness_JumpsCompleteAndChangeOnlyPc :
    (∃ s : State, s.config.variant = .a) ∧ ∃ s : State, s.config.variant = .b :=
  ⟨⟨State.reset, by decide⟩, ⟨State.resetOf cfgB, by decide⟩⟩
theorem test_witness_RegisterInstructionsCompleteAndChangeOnlyWAndPc : ∃ s : State, s.config.variant = .b :=
  ⟨State.resetOf cfgB, by decide⟩
theorem test_witness_StoreCompletesWithFrame :
    ∃ (s : State) (a b c d : Addr), s.config.variant = .b ∧ Memory.wf s.mem = true ∧
      a.toNat = 999 ∧ b.toNat = 1000 ∧ c.toNat = 1535 ∧ d.toNat = 1536 :=
  ⟨State.resetOf cfgB, 0x03E7, 0x03E8, 0x05FF, 0x0600, by decide⟩
theorem test_witness_BranchEqualCompletesWithFrame :
    (∃ s : State, s.config.variant = .b ∧ s.config.beqFixed = false) ∧
    ∃ s : State, s.config.variant = .b ∧ s.config.beqFixed = true :=
  ⟨⟨atBeq cfgB 7, by decide⟩, ⟨atBeq cfgFixed 7, by decide⟩⟩
theorem test_witness_HaltsCompleteAndOnlyEndTheRun :
    (∃ s : State, s.config.variant = .a) ∧ ∃ s : State, s.config.variant = .b :=
  ⟨⟨State.reset, by decide⟩, ⟨State.resetOf cfgB, by decide⟩⟩
theorem test_witness_OtherVariantsInstructionIsInvalid :
    (∃ (i : Instr) (s : State) (op : Byte) (rest : List Byte), encode i = op :: rest ∧ op ∉ opcodesOf s.config.variant) ∧
    ∃ (i : Instr) (s : State) (op : Byte) (rest : List Byte),
      encode i = op :: rest ∧ op = 0xFF ∧ i.variant ≠ s.config.variant :=
  ⟨⟨.bLdi 7, State.reset, 0x50, [7], by decide⟩, ⟨.bHlt, State.reset, 0xFF, [], by decide⟩⟩
theorem test_witness_PeekReturnsTheByte :
    ∃ (s : State) (a : Int) (rest : List HostOp), s.Asks (.peek a) rest ∧ a = memSize s :=
  ⟨asked cfgB [.peek 1536], 1536, [], by decide⟩
theorem test_witness_PokeWritesTheByte :
    (∃ (s : State) (v : Byte), Memory.wf s.mem = true ∧ s.Asks (.poke 999 v) [] ∧ s.config.variant = .b) ∧
    (∃ (s : State) (v : Byte), Memory.wf s.mem = true ∧ s.Asks (.poke 1000 v) [] ∧ s.config.variant = .b) ∧
    ∃ (s : State) (v : Byte), Memory.wf s.mem = true ∧ s.Asks (.poke 1024 v) [] ∧ (memSize s : Int) ≤ 1024 :=
  ⟨⟨asked cfgB [.poke 999 1], 1, by decide⟩, ⟨asked cfgB [.poke 1000 1], 1, by decide⟩,
    ⟨asked cfgA [.poke 1024 1], 1, by decide⟩⟩
theorem test_witness_FetchExecuteBeginsTheRun :
    (∃ (s : State) (rest : List HostOp), s.Asks (.fetchExecute (some 5000)) rest) ∧
    ∃ (s : State) (rest : List HostOp), s.Asks (.fetchExecute none) rest :=
  ⟨⟨asked cfgA [.fetchExecute (some 5000)], [], by decide⟩, ⟨asked cfgA [.fetchExecute none], [], by decide⟩⟩
theorem test_witness_OperationsBeforeFirstResetAreRefused :
    (∃ (s : State) (op : HostOp), s.phase = .idle ∧ s.allocated = false ∧ s.pending = [op] ∧ op ≠ .reset) ∧
    ∃ (s : State) (op : HostOp), s.phase = .idle ∧ s.allocated = false ∧ s.pending = [op] ∧ op = .reset :=
  ⟨⟨{ State.constructed cfgA with pending := [.peek 0] }, .peek 0, by decide⟩,
    ⟨{ State.constructed cfgA with pending := [.reset] }, .reset, by decide⟩⟩
theorem test_witness_HostChangesOnlyWhatItsOperationNames :
    ∃ (s t : State) (op : HostOp), s.Asks op [] ∧ step s = .next t ∧ op ≠ .reset ∧
      (∀ lines, op ≠ .deserializeState lines) ∧ (∀ start, op ≠ .fetchExecute start) ∧ ∀ a v, op ≠ .poke a v :=
  ⟨asked cfgA [.peek 0], _, .peek 0, by decide, rfl, by simp, by simp, by simp, by simp⟩
/-- An idle engine asked for a save, with one cell that is not zero. -/
def atSave : State := { asked cfgB [.serializeState] with mem := [(1535, 7)] }

theorem atSave_inv : atSave.Inv :=
  ⟨by decide, by decide, fun _ => rfl, fun _ => rfl, by simp [atSave, asked], by simp [atSave, asked]⟩

theorem test_witness_RestoreOfSaveReproducesTheEngine :
    (∃ s : State, s.Inv ∧ s.Asks .serializeState [] ∧ s.mem ≠ []) ∧ ∃ s : State, s.Inv ∧ s.phase = .running ∧ s.mem ≠ [] :=
  ⟨⟨atSave, atSave_inv, by decide⟩, ⟨atHalt, running_inv (by decide) (by decide), by decide⟩⟩
theorem test_witness_SerializeEmitsTheNonZeroCells :
    ∃ s : State, s.Inv ∧ s.Asks .serializeState [] ∧ s.config.variant = .b ∧ memRead 1535 s ≠ 0 :=
  ⟨atSave, atSave_inv, by decide⟩
theorem test_witness_RestoreStopsAtFirstBadLine :
    ∃ (s : State) (good : List SaveLine), .malformed ∉ good ∧ good ≠ [] ∧ (s.config.variant = .a → ∀ v, .w v ∉ good) :=
  ⟨State.reset, [.pc 4], by simp, by simp, by simp⟩
theorem test_witness_EndedRunRepeatsItsSignal :
    ∃ (s t : State) (sig : Signal) (rest : List HostOp), s.phase = .running ∧ ¬ s.Fetches .b 0x70 ∧ step s = .next t ∧
      t.outputs = s.outputs ++ [.signal sig] ∧ t.pending = .fetchExecute none :: rest :=
  ⟨{ atHalt with pending := [.fetchExecute none] }, _, .halted, [], by decide, by decide, rfl, by decide, by decide⟩
theorem test_witness_ResumedLegacyBranchEqualsFixedBranch :
    ∃ (s : State) (rest : List HostOp), s.Fetches .b 0x70 ∧ s.config.beqFixed = false ∧ s.pending = .fetchExecute none :: rest :=
  ⟨atBeq cfgB 7, [], by decide⟩
theorem test_witness_MoreFuelKeepsTheEnd : ∃ (n : Nat) (s t : State), runFuel n s = .ended t :=
  ⟨1, atHalt, raise .halted atHalt, rfl⟩
theorem test_witness_GrantsFollowTheAccessOrder :
    (∃ s : State, s.phase = .running ∧ s.allocated = true ∧ (memSize s : Int) ≤ s.pc) ∧
    (∃ (s : State) (e : Reject), s.phase = .running ∧ s.allocated = true ∧ s.pc < memSize s ∧
      decode s.config.variant (fetchBytes s) = .error e) ∧
    (∃ (s : State) (imm : Byte) (rest : List Byte), s.phase = .running ∧ s.allocated = true ∧ s.pc < memSize s ∧
      decode s.config.variant (fetchBytes s) = .ok (.aAddm imm 0x0110, rest)) ∧
    (∃ (s : State) (rest : List Byte), s.phase = .running ∧ s.allocated = true ∧ s.pc < memSize s ∧
      decode s.config.variant (fetchBytes s) = .ok (.bStw 999, rest)) ∧
    ∃ (s : State) (rest : List Byte), s.phase = .running ∧ s.allocated = true ∧ s.pc < memSize s ∧
      decode s.config.variant (fetchBytes s) = .ok (.bStw 1000, rest) :=
  ⟨⟨running cfgA 1024 0 [], by decide⟩, ⟨running cfgB 1535 0 [], .invalidOpcode 0, by decide⟩,
    ⟨running cfgA 0 0 [(0, 0x0A), (1, 0x05), (2, 0x01), (3, 0x10)], 0x05, [], by decide⟩,
    ⟨atStw 0x03 0xE7, [0], by decide⟩, ⟨atStw 0x03 0xE8, [0], by decide⟩⟩
theorem test_witness_MemoryChangesOnlyAtGrantedWrites :
    ∃ (s t : State), s.phase = .running ∧ step s = .next t ∧ .dataWrite 1 ∉ stepGrants s ∧ .dataWrite 0 ∈ stepGrants s :=
  ⟨running cfgB 0x400 0x41 [(0x400, 0x51)], _, rfl, rfl, by decide, by decide⟩
theorem test_witness_ArbiterIsExclusive :
    (∃ (s : State) (g : Grant), g ∈ stepGrants s ∧ s.phase = .running) ∧
    ∃ (s : State) (g : Grant), g ∈ stepGrants s ∧ s.phase = .idle :=
  ⟨⟨atHalt, .opcodeFetch 0, by decide⟩, ⟨asked cfgA [.reset], .zeroFill, by decide⟩⟩
theorem test_witness_ScreenIsTwentyFiveRowsOfForty :
    ∃ (snap : List Byte) (r c : Nat) (b : Byte), r < 25 ∧ c < 40 ∧ snap[r * 40 + c]? = some b ∧ r * 40 + c = 999 :=
  ⟨Memory.slice [(999, 0x41)] 0 1000, 24, 39, 0x41, by decide, by decide,
    by rw [Memory.getElem?_slice (by decide)]; decide, by decide⟩

end Sys2Proof.Tests
end

section
/-!
The steps of the machine, said once for the statements on scope: an operation asked of an idle engine, and a step of a run.
-/

namespace Sys2Proof.Machine

open Sys2Proof

/-- Between runs an engine with memory performs the operation asked. -/
theorem step_of_asks {s : State} {op : HostOp} {rest : List HostOp} (h : s.Asks op rest) :
    step s = hostOp op { s with pending := rest } := by
  obtain ⟨hidle, halloc, hpend⟩ := h
  simp [step_idle hidle, idleStep, hpend, halloc]

/-- A step of a run that answers a next state is one iteration of the loop on an engine with memory. -/
theorem step_running_execStep {s t : State} (hr : s.phase = .running) (h : step s = .next t) : ExecStep s t := by
  cases ha : s.allocated with
  | false => simp [step, hr, runningStep, ha] at h
  | true =>
    obtain ⟨u, hu, he⟩ := loopStep_execStep s
    rw [step_running hr ha, hu, Host.Outcome.next.injEq] at h
    exact h ▸ he

/-- The engine a step leaves is the engine it found: its variant is constant and its memory is never given back (R2, R31). -/
structure State.SameEngine (s t : State) : Prop where
  config : t.config = s.config
  allocated : s.allocated = true → t.allocated = true

/-- A step of a run leaves the same engine. -/
theorem ExecStep.sameEngine {s t : State} (h : ExecStep s t) : s.SameEngine t :=
  ⟨h.config, fun ha => h.allocated.trans ha⟩

/-- Every host operation leaves the same engine; a restore does because each of its lines does. -/
theorem hostOp_sameEngine {op : HostOp} {s t : State} (h : hostOp op s = .next t) : s.SameEngine t := by
  cases op with
  | deserializeState lines =>
    obtain ⟨u, code, rfl, hu⟩ := restoreFrom_induct (P := s.SameEngine)
      (fun _ _ hs => ⟨hs.config, hs.allocated⟩) (fun _ _ _ hs => ⟨hs.config, hs.allocated⟩)
      (fun _ _ _ hs => ⟨by simp [hs.config], by simpa using hs.allocated⟩) h ⟨rfl, id⟩
    exact ⟨hu.config, hu.allocated⟩
  | reset | fetchExecute | peek | poke | statusText | serializeState =>
    simp only [hostOp, Host.Outcome.next.injEq] at h
    subst h
    exact ⟨by simp, by simp⟩

/-- Every step that answers a next state leaves the same engine. -/
theorem step_sameEngine {s t : State} (h : step s = .next t) : s.SameEngine t := by
  cases hp : s.phase with
  | running => exact (step_running_execStep hp h).sameEngine
  | idle =>
    rcases step_idle_cases hp h with ⟨_, rfl⟩ | ⟨op, rest, _, _, hop⟩
    · exact ⟨rfl, id⟩
    · obtain ⟨hcfg, halloc⟩ := hostOp_sameEngine hop
      exact ⟨hcfg, halloc⟩

/-- Settles O7: the engine is the same after an iteration of the loop and after each host operation. -/
theorem configurationNeverChanges : Obligations.ConfigurationNeverChanges := by
  intro s t h
  obtain ⟨hcfg, halloc⟩ := step_sameEngine h
  exact ⟨hcfg, halloc⟩

end Sys2Proof.Machine
end

section
/-!
A restore as a fold of its lines (R15): each readable line takes effect in turn, and only what comes after them decides how the
restore ends.
-/

namespace Sys2Proof.Machine

open Sys2Proof

/-- What one line of a save does to the engine it is restored into (R15). -/
def applyLine (s : State) : SaveLine → State
  | .pc v => setPc v s
  | .w v => setW v s
  | .cell a v => memWrite a v s
  | .malformed => s

/-- A line that a restore on an engine of variant `v` takes in: not malformed, and no `W` line on VariantA. -/
def SaveLine.Readable (v : Variant) (l : SaveLine) : Prop := l ≠ .malformed ∧ (v = .a → ∀ b, l ≠ .w b)

@[simp] theorem applyLine_config (s : State) (l : SaveLine) : (applyLine s l).config = s.config := by
  cases l <;> simp [applyLine]

/-- A restore takes a readable line in and goes on with the next. -/
theorem restoreFrom_cons {s : State} {l : SaveLine} (hl : l.Readable s.config.variant) (n : Nat)
    (rest : List SaveLine) : restoreFrom n (l :: rest) s = restoreFrom (n + 1) rest (applyLine s l) := by
  obtain ⟨hbad, hw⟩ := hl
  cases l with
  | pc v => rfl
  | cell a v => rfl
  | malformed => exact absurd rfl hbad
  | w v =>
    cases hv : s.config.variant with
    | a => exact absurd rfl (hw hv v)
    | b => simp [restoreFrom, hv, applyLine]

/-- A restore takes readable lines in one after another and goes on with what follows them. -/
theorem restoreFrom_append {s : State} {good : List SaveLine} (hg : ∀ l ∈ good, l.Readable s.config.variant)
    (n : Nat) (rest : List SaveLine) :
    restoreFrom n (good ++ rest) s = restoreFrom (n + good.length) rest (good.foldl applyLine s) := by
  induction good generalizing n s with
  | nil => rfl
  | cons l good ih =>
    obtain ⟨hl, hg⟩ := List.forall_mem_cons.mp hg
    rw [List.cons_append, restoreFrom_cons hl, ih (by simpa using hg), List.foldl_cons, List.length_cons,
      Nat.add_right_comm, Nat.add_assoc]

/-- A restore of readable lines alone succeeds, with the effect of every line. -/
theorem restoreFrom_readable {s : State} {good : List SaveLine} (hg : ∀ l ∈ good, l.Readable s.config.variant)
    (n : Nat) : restoreFrom n good s = .next (emit (.restored 0) (good.foldl applyLine s)) := by
  simpa [restoreFrom] using restoreFrom_append hg n []

/-- Settles O52: the lines before the bad one have the same effect whatever follows them. -/
theorem restoreStopsAtFirstBadLine : Obligations.RestoreStopsAtFirstBadLine := by
  intro s good rest hbad hw
  have hg : ∀ l ∈ good, l.Readable s.config.variant := fun l hl =>
    ⟨fun h => hbad (h ▸ hl), fun hv b h => hw hv b (h ▸ hl)⟩
  refine ⟨good.foldl applyLine s, restoreFrom_readable hg 1, ?_⟩
  rw [hostOp, restoreFrom_append hg, restoreFrom, Nat.add_comm]

end Sys2Proof.Machine
end

section
/-!
What a save holds (R14) and what restoring it does (R16): the canonical list of cells is the list of the non-zero ones, and storing them one
after another into an empty memory builds that list again.
-/

namespace Sys2Proof.Machine

open Sys2Proof

/-- A canonical list with a first cell: it lies at or after the start, holds a byte that is not 0, and the others come after it. -/
theorem Memory.wfFrom_cons {lo a : Nat} {v : Byte} {m : List Host.Cell} :
    Memory.wfFrom lo ((a, v) :: m) = true ↔ lo ≤ a ∧ v ≠ Memory.unlisted ∧ Memory.wfFrom (a + 1) m = true := by
  simp [Memory.wfFrom, and_assoc]

theorem Memory.below_cons {n a : Nat} {v : Byte} {m : List Host.Cell} :
    Memory.below n ((a, v) :: m) = true ↔ a < n ∧ Memory.below n m = true := by
  simp [Memory.below]

theorem Memory.below_mono {n n' : Nat} (h : n ≤ n') {m : List Host.Cell} (hm : Memory.below n m = true) :
    Memory.below n' m = true := by
  simp only [Memory.below, List.all_eq_true, decide_eq_true_eq] at hm ⊢
  exact fun c hc => (hm c hc).trans_le h

/-- Storing a byte that is not 0 beyond every listed cell puts it at the end of the list. -/
theorem Memory.set_append {a : Nat} {v : Byte} (hv : v ≠ Memory.unlisted) {m : List Host.Cell}
    (hm : Memory.below a m = true) : Memory.set a v m = m ++ [(a, v)] := by
  induction m with
  | nil => simp [Memory.set, hv]
  | cons c rest ih =>
    obtain ⟨b, u⟩ := c
    obtain ⟨hb, hrest⟩ := Memory.below_cons.mp hm
    simp [Memory.set, hb.not_gt, hb.ne', ih hrest]

/-- A canonical list begins at its first possible address, or after it. -/
theorem Memory.wfFrom_head_or_succ {lo : Nat} {m : List Host.Cell} (hm : Memory.wfFrom lo m = true) :
    (∃ v rest, m = (lo, v) :: rest) ∨ Memory.wfFrom (lo + 1) m = true := by
  cases m with
  | nil => exact .inr rfl
  | cons c rest =>
    obtain ⟨a, v⟩ := c
    obtain ⟨hlo, hv, hrest⟩ := Memory.wfFrom_cons.mp hm
    rcases hlo.eq_or_lt with rfl | hlt
    · exact .inl ⟨v, rest, rfl⟩
    · exact .inr (Memory.wfFrom_cons.mpr ⟨hlt, hv, hrest⟩)

/-- Byte sources that agree on a list of addresses pick the same non-zero cells from it. -/
theorem map_filter_ne_zero_congr {α : Type} {l : List Nat} {f g : Nat → Byte} (h : ∀ k ∈ l, f k = g k)
    (mk : Nat → Byte → α) :
    (l.filter fun k => f k ≠ 0).map (fun k => mk k (f k)) = (l.filter fun k => g k ≠ 0).map fun k => mk k (g k) := by
  rw [List.filter_congr (fun k hk => by rw [h k hk])]
  exact List.map_congr_left fun k hk => by rw [h k (List.mem_filter.mp hk).1]

/-- A canonical list is the list of the cells of its range that do not read 0, in ascending order. -/
theorem Memory.nonZero_cells {lo len : Nat} {m : List Host.Cell} (hm : Memory.wfFrom lo m = true)
    (hb : Memory.below (lo + len) m = true) :
    ((List.range' lo len).filter fun k => Memory.get m k ≠ 0).map (fun k => (k, Memory.get m k)) = m := by
  induction len generalizing lo m with
  | zero =>
    cases m with
    | nil => rfl
    | cons c rest =>
      obtain ⟨hlo, -⟩ := Memory.wfFrom_cons.mp hm
      obtain ⟨hhi, -⟩ := Memory.below_cons.mp hb
      omega
  | succ len ih =>
    rw [← Nat.add_assoc, Nat.add_right_comm] at hb
    rw [List.range'_succ]
    rcases Memory.wfFrom_head_or_succ hm with ⟨v, rest, rfl⟩ | hskip
    · obtain ⟨-, hv, hrest⟩ := Memory.wfFrom_cons.mp hm
      obtain ⟨-, hbrest⟩ := Memory.below_cons.mp hb
      have hhead : Memory.get ((lo, v) :: rest) lo = v := if_pos rfl
      have htail : ∀ k ∈ List.range' (lo + 1) len, Memory.get ((lo, v) :: rest) k = Memory.get rest k :=
        fun k hk => if_neg (by have := (List.mem_range'_1.mp hk).1; omega)
      rw [List.filter_cons_of_pos (by rw [hhead]; exact decide_eq_true hv), List.map_cons, hhead,
        map_filter_ne_zero_congr htail Prod.mk, ih hrest hbrest]
    · have hget : Memory.get m lo = 0 := Memory.get_of_lt (Nat.lt_succ_self lo) hskip
      rw [List.filter_cons_of_neg (by simp [hget]), ih hskip hb]

/-- The cell lines of a save, from the reads of every address: those that do not read 0 (R14). -/
theorem cellLines_eq {s : State} (hi : s.Inv) :
    cellLines s =
      ((List.range (memSize s)).filter fun k : Nat => memRead k s ≠ 0).map fun k : Nat => .cell k (memRead k s) := by
  have hread : ∀ k ∈ List.range (memSize s), Memory.get s.mem k = memRead k s := fun k hk =>
    (memRead_of_inRange ⟨k.cast_nonneg, by simpa using hk⟩).symm
  have hcells := Memory.nonZero_cells (len := memSize s) hi.memWf (by simpa using hi.memBelow)
  rw [← List.range_eq_range', map_filter_ne_zero_congr hread Prod.mk] at hcells
  rw [cellLines, ← hcells, List.map_map]
  rfl

/-- The lines of a save on either variant (R14). -/
theorem saveLines_eq (s : State) :
    saveLines s = .pc s.pc :: ((if s.config.variant = .b then [.w s.w] else []) ++ cellLines s) := by
  cases hv : s.config.variant <;> simp [saveLines, hv]

/-- A save asked of an idle engine is put out and changes nothing else (R96). -/
theorem step_serializeState {s : State} {rest : List HostOp} (h : s.Asks .serializeState rest) :
    step s = .next { s with pending := rest, outputs := s.outputs ++ [.saved (saveLines s)] } :=
  step_of_asks h

/-- Settles O53: the canonical list of the memory is the list of its non-zero cells. -/
theorem serializeEmitsTheNonZeroCells : Obligations.SerializeEmitsTheNonZeroCells := by
  intro s rest hi ha
  rw [step_serializeState ha, saveLines_eq, cellLines_eq hi]

/-- A restore can read every line of a save of an engine of its own variant. -/
theorem saveLines_readable (s : State) : ∀ l ∈ saveLines s, l.Readable s.config.variant := by
  intro l hl
  rw [saveLines_eq, List.mem_cons, List.mem_append, cellLines, List.mem_map] at hl
  rcases hl with rfl | hw | ⟨c, -, rfl⟩
  · exact ⟨by simp, by simp⟩
  · obtain ⟨hv, rfl⟩ : s.config.variant = .b ∧ l = .w s.w := by simpa using hw
    exact ⟨by simp, by simp [hv]⟩
  · exact ⟨by simp, by simp⟩

/-- Restoring the lines of cells in canonical order, all after every cell of the memory, appends those cells to it and leaves `pc`
and `W`. -/
theorem foldl_applyLine_cells {lo : Nat} {m : List Host.Cell} {u : State} (hm : Memory.wfFrom lo m = true)
    (hb : Memory.below (memSize u) m = true) (hu : Memory.below lo u.mem = true) :
    let t := (m.map fun c => SaveLine.cell (c.1 : Int) c.2).foldl applyLine u
    t.pc = u.pc ∧ t.w = u.w ∧ t.mem = u.mem ++ m := by
  induction m generalizing lo u with
  | nil => simp
  | cons c rest ih =>
    obtain ⟨a, v⟩ := c
    obtain ⟨hlo, hv, hrest⟩ := Memory.wfFrom_cons.mp hm
    obtain ⟨ha, hbrest⟩ := Memory.below_cons.mp hb
    have hbelow : Memory.below a u.mem = true := Memory.below_mono hlo hu
    have hmem : (memWrite (a : Int) v u).mem = Memory.set a v u.mem := by
      rw [memWrite_mem, if_pos ⟨by omega, by omega⟩, Int.toNat_natCast]
    have hu' : Memory.below (a + 1) (memWrite (a : Int) v u).mem = true :=
      hmem ▸ Memory.set_below (Nat.lt_succ_self a) v (Memory.below_mono (Nat.le_succ a) hbelow)
    obtain ⟨hpc, hw, hcells⟩ := ih hrest (by simpa using hbrest) hu'
    refine ⟨hpc.trans (memWrite_pc ..), hw.trans (memWrite_w ..), hcells.trans ?_⟩
    rw [hmem, Memory.set_append hv hbelow, List.append_assoc, List.singleton_append]

/-- The lines of a save give a freshly reset engine of the same configuration the `pc`, `W` and memory saved. -/
theorem foldl_applyLine_saveLines {s : State} (hi : s.Inv) :
    let t := (saveLines s).foldl applyLine (State.resetOf s.config)
    t.pc = s.pc ∧ t.w = s.w ∧ t.mem = s.mem := by
  rw [saveLines_eq, List.foldl_cons, List.foldl_append]
  cases hv : s.config.variant with
  | a =>
    obtain ⟨hpc, hw, hmem⟩ := foldl_applyLine_cells (u := setPc s.pc (State.resetOf s.config))
      hi.memWf hi.memBelow rfl
    exact ⟨hpc, hw.trans (hi.noWOnA hv).symm, hmem⟩
  | b =>
    exact foldl_applyLine_cells (u := setW s.w (setPc s.pc (State.resetOf s.config))) hi.memWf hi.memBelow rfl

/-- Restoring a save into a freshly reset engine of the same configuration succeeds and gives the engine saved (R16). -/
theorem step_restore_saveLines {s : State} (hi : s.Inv) :
    ∃ t, step { State.resetOf s.config with pending := [.deserializeState (saveLines s)] } = .next t ∧
      t.pc = s.pc ∧ t.w = s.w ∧ t.mem = s.mem ∧ t.outputs.getLast? = some (.restored 0) := by
  have hstep : step { State.resetOf s.config with pending := [.deserializeState (saveLines s)] } =
      restoreFrom 1 (saveLines s) (State.resetOf s.config) :=
    step_of_asks (op := .deserializeState (saveLines s)) (rest := []) ⟨rfl, rfl, rfl⟩
  obtain ⟨hpc, hw, hmem⟩ := foldl_applyLine_saveLines hi
  exact ⟨_, hstep.trans (restoreFrom_readable (s := State.resetOf s.config) (saveLines_readable s) 1),
    hpc, hw, hmem, by simp⟩

/-- Settles O51: the lines a save puts out build the saved engine again from a freshly reset one. -/
theorem restoreOfSaveReproducesTheEngine : Obligations.RestoreOfSaveReproducesTheEngine :=
  ⟨fun s _ hi ha => by
    obtain ⟨t, ht⟩ := step_restore_saveLines hi
    exact ⟨saveLines s, t, step_serializeState ha, ht⟩,
  fun _ hi => step_restore_saveLines hi⟩

end Sys2Proof.Machine
end

section
/-!
The machine's invariant under each operation on the state (R26, R30, R31, R44, R53, R55), and so under every step.
-/

namespace Sys2Proof.Machine

open Sys2Proof

/-- An empty memory, `W` at 0 and no redraw: the invariant asks nothing more of an engine in that condition but memory for a run. -/
theorem State.Inv.of_cleared {s : State} (hm : s.mem = []) (hw : s.w = 0) (ho : s.outputs = [])
    (hrun : s.phase = .running → s.allocated = true) : s.Inv where
  memWf := hm ▸ Memory.nil_wf
  memBelow := hm ▸ rfl
  runAllocated := hrun
  noWOnA _ := hw
  noRedrawOnA _ _ := by simp [ho]
  redrawSize _ := by simp [ho]

/-- Settles O4: both states hold the initial values, and neither is in a run. -/
theorem resetStateMeetsInvariant : Obligations.ResetStateMeetsInvariant := by
  have hreset (cfg : Config) : (State.resetOf cfg).Inv := .of_cleared rfl rfl rfl nofun
  have hconstructed (cfg : Config) : (State.constructed cfg).Inv := .of_cleared rfl rfl rfl nofun
  exact ⟨fun cfg => ⟨hreset cfg, hconstructed cfg⟩, hreset _⟩

/-- The invariant looks at no more of a state than its configuration, memory, outputs and `W`, and at whether a run has memory. -/
theorem State.Inv.congr {s t : State} (hs : s.Inv) (hcfg : t.config = s.config) (hmem : t.mem = s.mem)
    (hout : t.outputs = s.outputs) (hw : s.config.variant = .a → t.w = s.w)
    (hrun : t.phase = .running → t.allocated = true) : t.Inv where
  memWf := hmem ▸ hs.memWf
  memBelow := by simpa only [memSize, hcfg, hmem] using hs.memBelow
  runAllocated := hrun
  noWOnA hv := by
    rw [hcfg] at hv
    exact (hw hv).trans (hs.noWOnA hv)
  noRedrawOnA hv := hout ▸ hs.noRedrawOnA (hcfg ▸ hv)
  redrawSize := hout ▸ hs.redrawSize

/-- Only VariantB has a video region (R50, R55). -/
theorem InVideo.variant_b {a : Int} {s : State} (h : InVideo a s) : s.config.variant = .b := by
  obtain ⟨hlo, hhi⟩ := h
  cases hv : s.config.variant with
  | a =>
    rw [hv, Variant.videoSize] at hhi
    omega
  | b => rfl

/-- A redraw in the history after a write was there before, or is of VariantB and has 1000 bytes (R53, R55). -/
theorem redraw_mem_memWrite_outputs {a : Int} {v : Byte} {s : State} {snap : List Byte}
    (h : .redraw snap ∈ (memWrite a v s).outputs) :
    .redraw snap ∈ s.outputs ∨ s.config.variant = .b ∧ snap.length = 1000 := by
  rw [memWrite_outputs, List.mem_append] at h
  refine h.imp id fun hnew => ?_
  rw [List.mem_ite_nil_right, writeOutputs, List.mem_ite_nil_right, List.mem_singleton, Output.redraw.injEq] at hnew
  obtain ⟨-, hvideo, rfl⟩ := hnew
  exact ⟨hvideo.variant_b, snapshot_length _⟩

theorem State.Inv.memWrite {s : State} (hs : s.Inv) (a : Int) (v : Byte) : (memWrite a v s).Inv where
  memWf := memWrite_wf a v s hs.memWf
  memBelow := by simpa using memWrite_below a v s hs.memBelow
  runAllocated := by simpa using hs.runAllocated
  noWOnA := by simpa using hs.noWOnA
  noRedrawOnA hv snap h := by
    rw [memWrite_config] at hv
    rcases redraw_mem_memWrite_outputs h with hold | ⟨hb, -⟩
    · exact hs.noRedrawOnA hv snap hold
    · simp [hv] at hb
  redrawSize snap h := by
    rcases redraw_mem_memWrite_outputs h with hold | ⟨-, hlen⟩
    · exact hs.redrawSize snap hold
    · exact hlen

theorem State.Inv.emit {s : State} (hs : s.Inv) {o : Output} (ho : ∀ snap, .redraw snap ≠ o) : (emit o s).Inv where
  memWf := hs.memWf
  memBelow := hs.memBelow
  runAllocated := hs.runAllocated
  noWOnA := hs.noWOnA
  noRedrawOnA hv snap := by simpa [ho] using hs.noRedrawOnA hv snap
  redrawSize snap := by simpa [ho] using hs.redrawSize snap

theorem State.Inv.setPc {s : State} (hs : s.Inv) (target : Int) : (setPc target s).Inv :=
  hs.congr rfl rfl rfl (fun _ => rfl) hs.runAllocated

theorem State.Inv.setW {s : State} (hs : s.Inv) (v : Byte) (hv : s.config.variant = .b) : (setW v s).Inv :=
  hs.congr rfl rfl rfl (fun ha => by simp [hv] at ha) hs.runAllocated

theorem State.Inv.beginRun {s : State} (hs : s.Inv) (start : Option Int) (ha : s.allocated = true) :
    (beginRun start s).Inv :=
  hs.congr rfl rfl rfl (fun _ => rfl) fun _ => ha

theorem State.Inv.resetEngine {s : State} (hs : s.Inv) : (resetEngine s).Inv where
  memWf := Memory.nil_wf
  memBelow := rfl
  runAllocated _ := rfl
  noWOnA _ := rfl
  noRedrawOnA := hs.noRedrawOnA
  redrawSize := hs.redrawSize

/-- Going on, writing one byte and ending with a signal all keep the invariant, and an instruction does nothing else. -/
theorem ExecStep.inv {s t : State} (h : ExecStep s t) (hs : s.Inv) : t.Inv := by
  obtain ⟨hcfg, halloc, -, hw, heffect⟩ := h
  rcases heffect with ⟨hphase, hmem, hout⟩ | ⟨hphase, a, v, hmem, hout⟩ | ⟨hidle, hmem, sig, hout⟩
  · exact hs.congr hcfg hmem hout hw (by rw [hphase, halloc]; exact hs.runAllocated)
  · exact (hs.memWrite a v).congr (by simpa using hcfg) hmem hout (by simpa using hw)
      (by rw [hphase, halloc]; exact hs.runAllocated)
  · exact (hs.emit (o := .signal sig) nofun).congr hcfg hmem hout hw (by simp [hidle])

/-- Every host operation keeps the invariant; a restore does because each of its lines does. -/
theorem hostOp_inv {op : HostOp} {s t : State} (hs : s.Inv) (ha : s.allocated = true ∨ op = .reset)
    (h : hostOp op s = .next t) : t.Inv := by
  cases op with
  | deserializeState lines =>
    obtain ⟨u, code, rfl, hu⟩ := restoreFrom_induct (P := State.Inv) (fun v _ hs => hs.setPc v)
      (fun v _ hv hs => hs.setW v hv) (fun a v _ hs => hs.memWrite a v) h hs
    exact hu.emit nofun
  | reset =>
    obtain rfl := Host.Outcome.next.inj h
    exact hs.resetEngine
  | fetchExecute start =>
    obtain rfl := Host.Outcome.next.inj h
    exact hs.beginRun start (ha.resolve_right nofun)
  | poke a v =>
    obtain rfl := Host.Outcome.next.inj h
    exact hs.memWrite a v
  | peek | statusText | serializeState =>
    obtain rfl := Host.Outcome.next.inj h
    exact hs.emit nofun

/-- Settles O5: an iteration of the loop keeps the invariant as an `ExecStep`, an idle step by the operation it performs. -/
theorem everyStepKeepsInvariant : Obligations.EveryStepKeepsInvariant := by
  intro s t hs h
  cases hp : s.phase with
  | running => exact (step_running_execStep hp h).inv hs
  | idle =>
    rcases step_idle_cases hp h with ⟨-, rfl⟩ | ⟨op, rest, -, ha, hop⟩
    · exact hs
    · exact hostOp_inv (hs.congr (t := { s with pending := rest }) rfl rfl rfl (fun _ => rfl) hs.runAllocated) ha hop

end Sys2Proof.Machine
end

section
/-!
Where a step of a run leaves `pc` (R23 to R25): a `pc` outside memory ends the run where it stands, and from inside memory an instruction
moves it by a branch's offset at most, or to an address operand.
-/

namespace Sys2Proof.Machine

open Sys2Proof

/-- The byte 0 is no opcode of either variant. -/
theorem decode_zero (v : Variant) (rest : List Byte) : decode v (0 :: rest) = .error (.invalidOpcode 0) := by
  cases v <;> rfl

/-- A negative `pc` passes the bounds test and fetches the byte 0 (R153, D2). -/
theorem loopStep_of_pc_neg {s : State} (h : s.pc < 0) : loopStep s = .next (raise .invalidOpcode s) := by
  have hread : memRead s.pc s = 0 := memRead_of_not_inRange fun hr => by have := hr.1; omega
  rcases loopStep_cases s with ⟨hpc, -⟩ | ⟨-, i, rest, hdec, -⟩ | ⟨-, -, hstep⟩
  · omega
  · rw [fetchBytes, hread, decode_zero] at hdec
    cases hdec
  · exact hstep

/-- Settles O37: the run ends at the fetched byte 0. -/
theorem negativePcIsInvalidOpcode : Obligations.NegativePcIsInvalidOpcode := by
  intro s hr ha hpc
  rw [step_running hr ha, loopStep_of_pc_neg hpc]
  rfl

/-- A `pc` outside memory ends the run and stays (D2, D3). -/
theorem loopStep_of_pc_not_inRange {s : State} (h : ¬ InRange s.pc s) : ∃ sig, loopStep s = .next (raise sig s) := by
  by_cases hneg : s.pc < 0
  · exact ⟨_, loopStep_of_pc_neg hneg⟩
  · exact ⟨.outOfBounds, if_pos (by by_contra hlt; exact h ⟨by omega, by omega⟩)⟩

/-- How far `pc` goes in one instruction: by what an 8-bit offset holds, or to an address operand. -/
def PcMove (s t : State) : Prop :=
  (s.pc - 128 ≤ t.pc ∧ t.pc ≤ s.pc + 127) ∨ (0 ≤ t.pc ∧ t.pc ≤ 65535)

theorem PcMove.of_add {s t : State} (n : Int) (h : t.pc = s.pc + n) (hn : -128 ≤ n ∧ n ≤ 127) : PcMove s t :=
  .inl (by omega)

theorem PcMove.raise (sig : Signal) (s : State) : PcMove s (raise sig s) :=
  .of_add 0 (by simp) (by omega)

theorem PcMove.setPc_addrVal (addr : Addr) (s : State) : PcMove s (setPc (addrVal addr) s) :=
  .inr (addrVal_range addr)

theorem beqFallThrough_pc (s : State) : (beqFallThrough s).pc = s.pc := by
  unfold beqFallThrough
  split <;> rfl

theorem PcMove.branchThenFall (cmpVal : Byte) (addr : Addr) (s : State) :
    PcMove s (branchThenFall cmpVal (addrVal addr) s) := by
  rw [PcMove, Machine.branchThenFall, beqFallThrough_pc, branchEq]
  split
  · exact PcMove.setPc_addrVal addr s
  · exact PcMove.of_add 4 (advance_pc s 4) (by omega)

/-- The guard of a variant moves `pc` as its effect does, or not at all. -/
theorem onVariant_pcMove {v : Variant} {f : State → State} {s t : State} (h : onVariant v f s = .next t)
    (hf : PcMove s (f s)) : PcMove s t := by
  rw [onVariant, Host.Outcome.next.injEq] at h
  subst h
  split
  · exact hf
  · exact .raise _ s

theorem exec_pcMove {i : Instr} {s t : State} (h : exec i s = .next t) : PcMove s t := by
  cases i with
  | aAddm imm addr | aSubm imm addr => exact onVariant_pcMove h (.of_add 4 (by simp [updateByte]) (by omega))
  | aJmp addr | bJmp addr => exact onVariant_pcMove h (.setPc_addrVal addr s)
  | aBra off => exact onVariant_pcMove h (.of_add (sext8 off) rfl (sext8_range off))
  | bLdi imm | bAddi imm | bSubi imm => exact onVariant_pcMove h (.of_add 2 rfl (by omega))
  | bStw addr => exact onVariant_pcMove h (.of_add 3 (by simp [storeW]) (by omega))
  | bBeq cmpVal addr => exact onVariant_pcMove h (.branchThenFall cmpVal addr s)
  | aHlt | bHlt =>
    obtain rfl := Host.Outcome.next.inj h
    exact .raise _ s

theorem loopStep_pcMove {s t : State} (h : loopStep s = .next t) : PcMove s t := by
  rcases loopStep_cases s with ⟨-, hstep⟩ | ⟨-, i, rest, -, hstep⟩ | ⟨-, -, hstep⟩
  · obtain rfl := Host.Outcome.next.inj (hstep.symm.trans h)
    exact .raise _ s
  · exact exec_pcMove (hstep.symm.trans h)
  · obtain rfl := Host.Outcome.next.inj (hstep.symm.trans h)
    exact .raise _ s

/-- From an address of a cell, no move of an instruction leaves the range of R25. -/
theorem PcMove.inProgramRange {s t : State} (h : PcMove s t) (hr : InRange s.pc s) : t.PcInProgramRange := by
  have hsize : memSize s ≤ 1536 := by
    rw [memSize]
    cases s.config.variant <;> decide
  obtain ⟨hlo, hhi⟩ := hr
  rw [State.PcInProgramRange]
  rcases h with h | h <;> omega

/-- A step of a run that answers a next state is an iteration of the loop. -/
theorem loopStep_of_step_running {s t : State} (hr : s.phase = .running) (h : step s = .next t) :
    loopStep s = .next t := by
  cases ha : s.allocated with
  | false => simp [step, hr, runningStep, ha] at h
  | true => rwa [step_running hr ha] at h

/-- Settles O6: outside memory the run ends where it stands; inside, no instruction moves `pc` far enough. -/
theorem runKeepsPcInProgramRange : Obligations.RunKeepsPcInProgramRange := by
  intro s t hr h
  have hloop := loopStep_of_step_running hr h
  have hout : ¬ InRange s.pc s → t.pc = s.pc ∧ t.phase = .idle := fun hpc => by
    obtain ⟨sig, hsig⟩ := loopStep_of_pc_not_inRange hpc
    obtain rfl := Host.Outcome.next.inj (hsig.symm.trans hloop)
    exact ⟨rfl, rfl⟩
  refine ⟨fun hs => ?_, hout⟩
  by_cases hpc : InRange s.pc s
  · exact (loopStep_pcMove hloop).inProgramRange hpc
  · rwa [State.PcInProgramRange, (hout hpc).1]

end Sys2Proof.Machine
end

section
/-!
The output history is write-only (R33, R102): putting an earlier history before that of a state commutes with every operation, and so with
the step.
-/

namespace Sys2Proof.Machine

open Sys2Proof

/-- `s` with the history `h` before its own. -/
def State.after (h : List Output) (s : State) : State := { s with outputs := h ++ s.outputs }

/-- An answer with the history `h` before that of its next state. -/
def Result.after (h : List Output) : Result → Result
  | .next t => .next (t.after h)
  | .fault f => .fault f
  | .refused r => .refused r

section
variable (h : List Output) (s : State)

@[simp] theorem after_config : (s.after h).config = s.config := rfl

@[simp] theorem after_allocated : (s.after h).allocated = s.allocated := rfl

@[simp] theorem after_phase : (s.after h).phase = s.phase := rfl

@[simp] theorem after_pc : (s.after h).pc = s.pc := rfl

@[simp] theorem after_pending : (s.after h).pending = s.pending := rfl

@[simp] theorem after_memSize : memSize (s.after h) = memSize s := rfl

@[simp] theorem fetchBytes_after : fetchBytes (s.after h) = fetchBytes s := rfl

@[simp] theorem memRead_after (a : Int) : memRead a (s.after h) = memRead a s := rfl

@[simp] theorem setPc_after (target : Int) : setPc target (s.after h) = (setPc target s).after h := rfl

@[simp] theorem advance_after (n : Int) : advance n (s.after h) = (advance n s).after h := rfl

@[simp] theorem setW_after (v : Byte) : setW v (s.after h) = (setW v s).after h := rfl

@[simp] theorem loadW_after (v : Byte) : loadW v (s.after h) = (loadW v s).after h := rfl

@[simp] theorem emit_after (o : Output) : emit o (s.after h) = (emit o s).after h := by
  simp [emit, State.after]

@[simp] theorem raise_after (sig : Signal) : raise sig (s.after h) = (raise sig s).after h :=
  emit_after h { s with phase := .idle } (.signal sig)

@[simp] theorem memWrite_after (a : Int) (v : Byte) : memWrite a v (s.after h) = (memWrite a v s).after h := by
  by_cases hr : InRange a s
  · have hr' : InRange a (s.after h) := hr
    have hw : writeOutputs a v (s.after h) = writeOutputs a v s := rfl
    rw [memWrite_of_inRange hr, memWrite_of_inRange hr', hw, State.after, State.after, List.append_assoc]
  · have hr' : ¬ InRange a (s.after h) := hr
    rw [memWrite_of_not_inRange hr, memWrite_of_not_inRange hr']

@[simp] theorem updateByte_after (f : Byte → Byte) (a : Int) :
    updateByte f a (s.after h) = (updateByte f a s).after h := by
  simp [updateByte]

@[simp] theorem storeW_after (a : Int) : storeW a (s.after h) = (storeW a s).after h := by
  rw [storeW, memWrite_after, advance_after]
  rfl

@[simp] theorem branchEq_after (cmpVal : Byte) (target : Int) :
    branchEq cmpVal target (s.after h) = (branchEq cmpVal target s).after h := by
  rw [branchEq, setPc_after, advance_after, branchEq, apply_ite (State.after h)]
  rfl

@[simp] theorem beqFallThrough_after : beqFallThrough (s.after h) = (beqFallThrough s).after h := by
  rw [beqFallThrough, raise_after, beqFallThrough, apply_ite (State.after h)]
  rfl

@[simp] theorem branchThenFall_after (cmpVal : Byte) (target : Int) :
    branchThenFall cmpVal target (s.after h) = (branchThenFall cmpVal target s).after h := by
  simp [branchThenFall]

/-- The guard of a variant reads no history where its effect reads none. -/
theorem onVariant_after {f : State → State} (hf : f (s.after h) = (f s).after h) (v : Variant) :
    onVariant v f (s.after h) = Result.after h (onVariant v f s) := by
  rw [onVariant, hf, raise_after, onVariant, Result.after, apply_ite (State.after h)]
  rfl

theorem exec_after (i : Instr) : exec i (s.after h) = Result.after h (exec i s) := by
  cases i with
  | aAddm imm addr | aSubm imm addr => exact onVariant_after h s (updateByte_after ..) .a
  | aJmp addr => exact onVariant_after h s (setPc_after ..) .a
  | aBra off => exact onVariant_after h s (advance_after ..) .a
  | bLdi imm | bAddi imm | bSubi imm => exact onVariant_after h s (loadW_after ..) .b
  | bStw addr => exact onVariant_after h s (storeW_after ..) .b
  | bJmp addr => exact onVariant_after h s (setPc_after ..) .b
  | bBeq cmpVal addr => exact onVariant_after h s (branchThenFall_after ..) .b
  | aHlt | bHlt => exact congrArg Host.Outcome.next (raise_after h s .halted)

theorem loopStep_after : loopStep (s.after h) = Result.after h (loopStep s) := by
  simp only [loopStep, after_config, after_pc, after_memSize, fetchBytes_after, raise_after, exec_after]
  split
  · rfl
  · split <;> rfl

theorem restoreFrom_after (n : Nat) (lines : List SaveLine) :
    restoreFrom n lines (s.after h) = Result.after h (restoreFrom n lines s) := by
  induction lines generalizing n s with
  | nil => exact congrArg Host.Outcome.next (emit_after h s _)
  | cons l rest ih =>
    cases l with
    | pc v => exact ih (setPc v s) (n + 1)
    | w v =>
      cases hv : s.config.variant with
      | a => simp [restoreFrom, hv, Result.after]
      | b => simp [restoreFrom, hv, ih]
    | cell a v => rw [restoreFrom, memWrite_after, ih, restoreFrom]
    | malformed => exact congrArg Host.Outcome.next (emit_after h s _)

theorem hostOp_after (op : HostOp) : hostOp op (s.after h) = Result.after h (hostOp op s) := by
  cases op with
  | reset | fetchExecute start => rfl
  | poke a v => exact congrArg Host.Outcome.next (memWrite_after h s a v)
  | peek a | statusText | serializeState => exact congrArg Host.Outcome.next (emit_after h s _)
  | deserializeState lines => exact restoreFrom_after h s 1 lines

theorem idleStep_after : idleStep (s.after h) = Result.after h (idleStep s) := by
  rw [idleStep, after_pending, after_allocated, idleStep]
  cases s.pending with
  | nil => rfl
  | cons op rest =>
    rw [apply_ite (Result.after h)]
    exact if_congr Iff.rfl (hostOp_after h { s with pending := rest } op) rfl

/-- A step on a longer history is the step on the shorter one, with the earlier outputs put before what it answers. -/
theorem step_after : step (s.after h) = Result.after h (step s) := by
  rw [step, after_phase, step]
  cases s.phase with
  | idle => exact idleStep_after h s
  | running =>
    rw [runningStep, after_allocated, loopStep_after, runningStep, apply_ite (Result.after h)]
    rfl

/-- The step on a state, from the step on the same state with its history forgotten. -/
theorem step_setOutputs : step { s with outputs := h } = Result.after h (step { s with outputs := [] }) := by
  rw [← step_after, State.after, List.append_nil]

end

/-- Settles O10: with either history the step is the one on no history, with that history put before. -/
theorem outputsAreNeverReadBack : Obligations.OutputsAreNeverReadBack := by
  intro s o
  have hs : step s = Result.after s.outputs (step { s with outputs := [] }) := step_setOutputs s.outputs s
  rw [hs, step_setOutputs o s]
  cases step { s with outputs := [] } with
  | next t => exact ⟨t.outputs, rfl, rfl⟩
  | fault f => rfl
  | refused r => rfl

end Sys2Proof.Machine
end

section
/-!
The values right after `reset` (R32).
-/

namespace Sys2Proof.Machine

open Sys2Proof

/-- Settles O1: the table of R32, field by field, for the operation and for the state right after it. -/
theorem resetLeavesTheResetState : Obligations.ResetLeavesTheResetState := fun s =>
  ⟨⟨resetEngine_pc s, fun _ => resetEngine_w s, fun a _ _ => memRead_resetEngine a s, resetEngine_allocated s⟩,
    fun cfg => ⟨resetOf_pc cfg, fun _ => resetOf_w cfg, fun a _ _ => memRead_resetOf a cfg, resetOf_allocated cfg⟩⟩

end Sys2Proof.Machine
end

section
/-!
The two memory primitives at any integer address (R40 to R44), and the redraw of a write into the video region (R52, R53, R55).
-/

namespace Sys2Proof.Machine

open Sys2Proof

/-- `MEM_SIZE` of either variant in numbers (R6). -/
theorem memSize_eq (s : State) : (memSize s : Int) = if s.config.variant = .a then 1024 else 1536 := by
  cases hv : s.config.variant <;> simp [hv]

/-- The video region in numbers: VariantB below 1000 (R50). -/
theorem inVideo_iff {a : Int} {s : State} : InVideo a s ↔ s.config.variant = .b ∧ 0 ≤ a ∧ a < 1000 := by
  constructor
  · intro h
    have hb := h.variant_b
    rw [InVideo, hb] at h
    exact ⟨hb, h⟩
  · rintro ⟨hb, ha⟩
    rw [InVideo, hb]
    exact ha

/-- Settles O13: `InRange` at the size of either variant. -/
theorem memReadIsBoundsChecked : Obligations.MemReadIsBoundsChecked := by
  intro s a
  rw [← memSize_eq]
  exact ⟨memRead_of_inRange, fun hout => memRead_of_not_inRange fun ⟨hlo, hhi⟩ => by omega⟩

/-- Settles O14: the read-after-write laws of one cell, and the dropped write. -/
theorem writeSetsOneCellOrNothing : Obligations.WriteSetsOneCellOrNothing := by
  refine fun s a v hwf => ⟨fun hr => ⟨fun b => ?_, by simp⟩, fun hout => ?_⟩
  · split
    · next hb => rw [hb, memRead_memWrite_same hr hwf]
    · next hb => exact memRead_memWrite_other hb v s
  · exact memWrite_of_not_inRange fun ⟨hlo, hhi⟩ => by omega

/-- A write into the video region appends one redraw, with the snapshot of the memory after it. -/
theorem memWrite_outputs_of_inVideo {a : Int} {s : State} (h : InVideo a s) (v : Byte) :
    (memWrite a v s).outputs = s.outputs ++ [.redraw (snapshot (memWrite a v s))] := by
  rw [memWrite_outputs, if_pos h.inRange, writeOutputs, if_pos h, snapshot, snapshot, memWrite_mem, if_pos h.inRange]

theorem memWrite_outputs_of_not_inVideo {a : Int} {s : State} (h : ¬ InVideo a s) (v : Byte) :
    (memWrite a v s).outputs = s.outputs := by
  rw [memWrite_outputs, writeOutputs, if_neg h, ite_self, List.append_nil]

/-- On VariantB the bytes of a snapshot are what the addresses of the video region read. -/
theorem getElem?_snapshot_eq_memRead {s : State} (hb : s.config.variant = .b) {k : Nat} (hk : k < 1000) :
    (snapshot s)[k]? = some (memRead (k : Int) s) := by
  have hr : InRange (k : Int) s := (inVideo_iff.mpr ⟨hb, by omega, by omega⟩).inRange
  rw [getElem?_snapshot hk, memRead_of_inRange hr, Int.toNat_natCast]

/-- Settles O15: a redraw and its snapshot inside the video region, no output elsewhere. -/
theorem videoWriteRedrawsWithSnapshot : Obligations.VideoWriteRedrawsWithSnapshot := by
  intro s a v
  rw [← inVideo_iff]
  refine ⟨fun h => ⟨_, memWrite_outputs_of_inVideo h v, snapshot_length _, fun k hk => ?_⟩,
    fun h => memWrite_outputs_of_not_inVideo h v⟩
  exact getElem?_snapshot_eq_memRead ((memWrite_config a v s).symm ▸ h.variant_b) hk

end Sys2Proof.Machine
end

section
/-!
While a run is in progress the list of what the host asks is neither read nor changed (R57, D7): putting another list in its place commutes
with every meaning, and so with the loop.
-/

namespace Sys2Proof.Machine

open Sys2Proof

/-- `s` with the host asking `p` instead. -/
def State.asking (p : List HostOp) (s : State) : State := { s with pending := p }

/-- An answer with the host asking `p` in its next state. -/
def Result.asking (p : List HostOp) : Result → Result
  | .next t => .next (t.asking p)
  | .fault f => .fault f
  | .refused r => .refused r

section
variable (p : List HostOp) (s : State)

theorem setPc_asking (target : Int) : setPc target (s.asking p) = (setPc target s).asking p := rfl

theorem advance_asking (n : Int) : advance n (s.asking p) = (advance n s).asking p := rfl

theorem loadW_asking (v : Byte) : loadW v (s.asking p) = (loadW v s).asking p := rfl

theorem memWrite_asking (a : Int) (v : Byte) : memWrite a v (s.asking p) = (memWrite a v s).asking p := by
  rw [memWrite, memWrite, apply_ite (State.asking p), apply_ite (State.asking p)]
  rfl

theorem updateByte_asking (f : Byte → Byte) (a : Int) :
    updateByte f a (s.asking p) = (updateByte f a s).asking p :=
  congrArg (advance 4) (memWrite_asking p s a (f (memRead a s)))

theorem storeW_asking (a : Int) : storeW a (s.asking p) = (storeW a s).asking p :=
  congrArg (advance 3) (memWrite_asking p s a s.w)

theorem branchThenFall_asking (cmpVal : Byte) (target : Int) :
    branchThenFall cmpVal target (s.asking p) = (branchThenFall cmpVal target s).asking p := by
  have hbranch : branchEq cmpVal target (s.asking p) = (branchEq cmpVal target s).asking p := by
    rw [branchEq, branchEq, apply_ite (State.asking p)]
    rfl
  rw [branchThenFall, hbranch, branchThenFall, beqFallThrough, beqFallThrough, apply_ite (State.asking p)]
  rfl

/-- The guard of a variant does not look at what the host asks where its effect does not. -/
theorem onVariant_asking {f : State → State} (hf : f (s.asking p) = (f s).asking p) (v : Variant) :
    onVariant v f (s.asking p) = Result.asking p (onVariant v f s) := by
  rw [onVariant, hf, onVariant, Result.asking, apply_ite (State.asking p)]
  rfl

theorem exec_asking (i : Instr) : exec i (s.asking p) = Result.asking p (exec i s) := by
  cases i with
  | aAddm imm addr | aSubm imm addr => exact onVariant_asking p s (updateByte_asking ..) .a
  | aJmp addr => exact onVariant_asking p s (setPc_asking ..) .a
  | aBra off => exact onVariant_asking p s (advance_asking ..) .a
  | bLdi imm | bAddi imm | bSubi imm => exact onVariant_asking p s (loadW_asking ..) .b
  | bStw addr => exact onVariant_asking p s (storeW_asking ..) .b
  | bJmp addr => exact onVariant_asking p s (setPc_asking ..) .b
  | bBeq cmpVal addr => exact onVariant_asking p s (branchThenFall_asking ..) .b
  | aHlt | bHlt => rfl

theorem loopStep_asking : loopStep (s.asking p) = Result.asking p (loopStep s) := by
  have hfetch : fetchBytes (s.asking p) = fetchBytes s := rfl
  rcases loopStep_cases s with ⟨hpc, h⟩ | ⟨hpc, i, rest, hdec, h⟩ | ⟨hpc, hdec, h⟩
  · rw [h]
    exact if_pos hpc
  · rw [h, ← exec_asking, loopStep, hfetch]
    exact (if_neg hpc).trans (by rw [State.asking, hdec])
  · rw [h, loopStep, hfetch]
    exact (if_neg hpc).trans (by rw [State.asking, hdec]; rfl)

/-- While a run is in progress a step answers alike whatever the host asks. -/
theorem step_asking {s : State} (hr : s.phase = .running) : step (s.asking p) = Result.asking p (step s) := by
  have hrun (t : State) (ht : t.phase = .running) : step t = runningStep t := by rw [step, ht]
  rw [hrun s hr, hrun (s.asking p) hr, runningStep, runningStep, loopStep_asking, apply_ite (Result.asking p)]
  rfl

end

/-- Settles O11: the loop neither reads the list nor, as an `ExecStep`, changes it. -/
theorem hostHasNoMoveDuringRun : Obligations.HostHasNoMoveDuringRun := by
  intro s p hr
  have hp : step { s with pending := p } = Result.asking p (step s) := step_asking p hr
  rw [hp]
  cases hs : step s with
  | next t => exact ⟨(step_running_execStep hr hs).pending, rfl⟩
  | fault f => rfl
  | refused r => rfl

end Sys2Proof.Machine
end

section
/-!
The arbiter's list of grants (R56 to R58): which requesters each part of it serves, and that a run's list is in the order of R58.
-/

namespace Sys2Proof.Machine

open Sys2Proof

theorem mem_writeGrants {write : Int → Grant} {address : Int} {s : State} {g : Grant} :
    g ∈ writeGrants write address s ↔ g = write address ∨ (InVideo address s ∧ g = .snapshotRead) := by
  rw [writeGrants]
  split
  · next hv => rw [List.mem_pair, and_iff_right hv]
  · next hv => rw [List.mem_singleton, or_iff_left fun h => hv h.1]

theorem eq_operandFetch_of_mem_operandGrants {n : Nat} {a : Int} {g : Grant} (h : g ∈ operandGrants a n) :
    ∃ b, g = .operandFetch b := by
  induction n generalizing a with
  | zero => cases h
  | succ n ih => exact (List.mem_cons.mp h).elim (fun hg => ⟨a, hg⟩) ih

theorem eq_hostRead_of_mem_hostReadGrants {n : Nat} {a : Int} {g : Grant} (h : g ∈ hostReadGrants a n) :
    ∃ b, g = .hostRead b := by
  induction n generalizing a with
  | zero => cases h
  | succ n ih => exact (List.mem_cons.mp h).elim (fun hg => ⟨a, hg⟩) ih

/-- The data accesses of an instruction: reads, writes and the snapshot of a redraw. -/
theorem mem_dataGrants_cases {i : Instr} {s : State} {g : Grant} (h : g ∈ dataGrants i s) :
    (∃ a, g = .dataRead a) ∨ (∃ a, g = .dataWrite a) ∨ g = .snapshotRead := by
  have hwrite {a : Int} (hw : g ∈ writeGrants .dataWrite a s) : (∃ a, g = .dataWrite a) ∨ g = .snapshotRead :=
    (mem_writeGrants.mp hw).imp (fun hg => ⟨a, hg⟩) And.right
  cases i with
  | aAddm imm addr | aSubm imm addr => exact (List.mem_cons.mp h).imp (fun hg => ⟨_, hg⟩) hwrite
  | bStw addr => exact .inr (hwrite h)
  | aJmp | aBra | aHlt | bLdi | bAddi | bSubi | bJmp | bBeq | bHlt => cases h

theorem stepGrants_running {s : State} (hr : s.phase = .running) (ha : s.allocated = true) :
    stepGrants s = loopGrants s := by
  rw [stepGrants, hr]
  exact if_pos ha

/-- Past the end of memory only the opcode is read (R58). -/
theorem loopGrants_of_le {s : State} (h : (memSize s : Int) ≤ s.pc) : loopGrants s = [.opcodeFetch s.pc] := by
  rw [loopGrants, if_pos h]

theorem loopGrants_of_error {s : State} {e : Reject} (h : decode s.config.variant (fetchBytes s) = .error e) :
    loopGrants s = [.opcodeFetch s.pc] := by
  rw [loopGrants, h, ite_self]

theorem loopGrants_of_ok {s : State} (hpc : ¬ (memSize s : Int) ≤ s.pc) {i : Instr} {rest : List Byte}
    (h : decode s.config.variant (fetchBytes s) = .ok (i, rest)) :
    loopGrants s = .opcodeFetch s.pc :: (operandGrants (s.pc + 1) (i.byteLength - 1) ++ dataGrants i s) := by
  rw [loopGrants, if_neg hpc, h]

/-- What an iteration of the loop is granted: the opcode alone, or the accesses of the instruction decoded as well. -/
theorem loopGrants_cases (s : State) :
    loopGrants s = [.opcodeFetch s.pc] ∨
    ∃ i : Instr, loopGrants s = .opcodeFetch s.pc :: (operandGrants (s.pc + 1) (i.byteLength - 1) ++ dataGrants i s) := by
  rcases loopStep_cases s with ⟨hpc, -⟩ | ⟨hpc, i, rest, hdec, -⟩ | ⟨-, hdec, -⟩
  · exact .inl (loopGrants_of_le hpc)
  · exact .inr ⟨i, loopGrants_of_ok hpc hdec⟩
  · exact .inl (loopGrants_of_error hdec)

/-- Every grant of a run is one of the engine's, or the snapshot of a redraw (R57). -/
theorem byEngine_of_mem_loopGrants {s : State} {g : Grant} (h : g ∈ loopGrants s) :
    g.byEngine = true ∨ g = .snapshotRead := by
  rcases loopGrants_cases s with hl | ⟨i, hl⟩ <;> rw [hl] at h
  · obtain rfl := List.mem_singleton.mp h
    exact .inl rfl
  · rw [List.mem_cons, List.mem_append] at h
    rcases h with rfl | h | h
    · exact .inl rfl
    · obtain ⟨b, rfl⟩ := eq_operandFetch_of_mem_operandGrants h
      exact .inl rfl
    · rcases mem_dataGrants_cases h with ⟨a, rfl⟩ | ⟨a, rfl⟩ | hg
      · exact .inl rfl
      · exact .inl rfl
      · exact .inr hg

theorem byEngine_eq_false_of_mem_hostWrite {a : Int} {s : State} {g : Grant} (h : g ∈ writeGrants .hostWrite a s) :
    g.byEngine = false := by
  rcases mem_writeGrants.mp h with rfl | ⟨-, rfl⟩ <;> rfl

theorem byEngine_eq_false_of_mem_restoreGrants {lines : List SaveLine} {s : State} {g : Grant}
    (h : g ∈ restoreGrants lines s) : g.byEngine = false := by
  induction lines with
  | nil => cases h
  | cons l rest ih =>
    cases l with
    | pc v => exact ih h
    | w v =>
      rw [restoreGrants] at h
      split at h
      · cases h
      · exact ih h
    | cell a v => exact (List.mem_append.mp h).elim byEngine_eq_false_of_mem_hostWrite ih
    | malformed => cases h

/-- No grant of a host operation is one of the engine's. -/
theorem byEngine_eq_false_of_mem_hostGrants {op : HostOp} {s : State} {g : Grant} (h : g ∈ hostGrants op s) :
    g.byEngine = false := by
  cases op with
  | reset | peek =>
    obtain rfl := List.mem_singleton.mp h
    rfl
  | poke => exact byEngine_eq_false_of_mem_hostWrite h
  | fetchExecute | statusText => cases h
  | serializeState =>
    obtain ⟨b, rfl⟩ := eq_hostRead_of_mem_hostReadGrants h
    rfl
  | deserializeState lines => exact byEngine_eq_false_of_mem_restoreGrants h

/-- What the arbiter grants belongs to the iteration of a run, or to the operation an idle engine is asked. -/
theorem mem_stepGrants_cases {s : State} {g : Grant} (h : g ∈ stepGrants s) :
    (s.phase = .running ∧ g ∈ loopGrants s) ∨ (s.phase = .idle ∧ ∃ op, g ∈ hostGrants op s) := by
  rw [stepGrants] at h
  cases hp : s.phase with
  | running =>
    rw [hp] at h
    exact .inl ⟨rfl, (List.mem_ite_nil_right.mp h).2⟩
  | idle =>
    rw [hp] at h
    cases hq : s.pending with
    | nil =>
      rw [hq] at h
      cases h
    | cons op rest =>
      rw [hq] at h
      exact .inr ⟨rfl, op, (List.mem_ite_nil_right.mp h).2⟩

/-- Settles O59: a run's grants are the loop's, an idle engine's the host operation's. -/
theorem arbiterIsExclusive : Obligations.ArbiterIsExclusive := by
  intro s g h
  rcases mem_stepGrants_cases h with ⟨hp, hg⟩ | ⟨hp, op, hg⟩
  · exact ⟨fun _ => byEngine_of_mem_loopGrants hg, by simp [hp]⟩
  · exact ⟨by simp [hp], fun _ => byEngine_eq_false_of_mem_hostGrants hg⟩

/-- In the order of R58. -/
def InAccessOrder (l : List Grant) : Prop := l.Pairwise fun x y => x.rank ≤ y.rank

theorem operandGrants_inAccessOrder (a : Int) (n : Nat) : InAccessOrder (operandGrants a n) :=
  List.pairwise_of_forall_mem_list fun x hx y hy => by
    obtain ⟨b, rfl⟩ := eq_operandFetch_of_mem_operandGrants hx
    obtain ⟨c, rfl⟩ := eq_operandFetch_of_mem_operandGrants hy
    exact le_rfl

theorem writeGrants_inAccessOrder (a : Int) (s : State) : InAccessOrder (writeGrants .dataWrite a s) := by
  rw [writeGrants]
  split <;> simp [InAccessOrder, Grant.rank]

theorem two_le_rank_of_mem_dataGrants {i : Instr} {s : State} {g : Grant} (h : g ∈ dataGrants i s) :
    2 ≤ g.rank := by
  rcases mem_dataGrants_cases h with ⟨a, rfl⟩ | ⟨a, rfl⟩ | rfl <;> simp [Grant.rank]

/-- A data read comes before the write and the snapshot of its redraw. -/
theorem dataGrants_inAccessOrder (i : Instr) (s : State) : InAccessOrder (dataGrants i s) := by
  cases i with
  | aAddm imm addr | aSubm imm addr =>
    exact List.pairwise_cons.mpr
      ⟨fun g hg => two_le_rank_of_mem_dataGrants (i := .bStw addr) hg, writeGrants_inAccessOrder _ s⟩
  | bStw addr => exact writeGrants_inAccessOrder _ s
  | aJmp | aBra | aHlt | bLdi | bAddi | bSubi | bJmp | bBeq | bHlt => exact .nil

theorem loopGrants_inAccessOrder (s : State) : InAccessOrder (loopGrants s) := by
  rcases loopGrants_cases s with hl | ⟨i, hl⟩ <;> rw [hl]
  · exact List.pairwise_singleton ..
  · refine List.pairwise_cons.mpr ⟨fun g _ => Nat.zero_le g.rank, List.pairwise_append.mpr
      ⟨operandGrants_inAccessOrder .., dataGrants_inAccessOrder i s, fun x hx y hy => ?_⟩⟩
    obtain ⟨b, rfl⟩ := eq_operandFetch_of_mem_operandGrants hx
    exact (Nat.le_succ 1).trans (two_le_rank_of_mem_dataGrants hy)

/-- A write on VariantA, which has no video region, is the one access. -/
theorem writeGrants_of_variant_a {s : State} (hv : s.config.variant = .a) (write : Int → Grant) (a : Int) :
    writeGrants write a s = [write a] :=
  if_neg fun h : InVideo a s => nomatch hv.symm.trans h.variant_b

/-- A write on VariantB brings the snapshot of its redraw with it below 1000. -/
theorem writeGrants_of_variant_b {s : State} (hv : s.config.variant = .b) (write : Int → Grant) (addr : Addr) :
    writeGrants write (addrVal addr) s = write addr.toNat :: if addr.toNat < 1000 then [.snapshotRead] else [] := by
  have hvideo : InVideo (addrVal addr) s ↔ addr.toNat < 1000 := by
    rw [inVideo_iff, addrVal]
    exact ⟨fun h => by omega, fun h => ⟨hv, by omega, by omega⟩⟩
  rw [writeGrants, if_congr hvideo rfl rfl]
  split <;> rfl

/-- Settles O57: the order from the ranks of the list's parts, the list itself by the instruction decoded. -/
theorem grantsFollowTheAccessOrder : Obligations.GrantsFollowTheAccessOrder := by
  intro s hr ha
  rw [stepGrants_running hr ha]
  refine ⟨rfl, loopGrants_inAccessOrder s, loopGrants_of_le, fun e he => loopGrants_of_error he,
    fun i rest hpc hdec => ?_⟩
  have hv := decode_variant hdec
  rw [loopGrants_of_ok hpc.not_ge hdec]
  cases i with
  | aAddm imm addr | aSubm imm addr =>
    simp [Instr.byteLength, operandGrants, dataGrants, writeGrants_of_variant_a hv.symm, addrVal, add_assoc]
  | bStw addr => simp [Instr.byteLength, operandGrants, dataGrants, writeGrants_of_variant_b hv.symm, add_assoc]
  | aJmp | aBra | aHlt | bLdi | bAddi | bSubi | bJmp | bBeq | bHlt =>
    simp [Instr.byteLength, operandGrants, dataGrants, add_assoc]

end Sys2Proof.Machine
end

section
/-!
What the decoder reads, it reads from that instruction's encoding (R71, R76, R77).
-/

namespace Sys2Proof

theorem takeByte_eq_ok {mk : Byte → Instr} {bs rest : List Byte} {i : Instr} (h : takeByte mk bs = .ok (i, rest)) :
    ∃ x, i = mk x ∧ bs = x :: rest := by
  rw [takeByte.eq_def] at h
  split at h <;> cases h
  exact ⟨_, rfl, rfl⟩

theorem takeAddr_eq_ok {mk : Addr → Instr} {bs rest : List Byte} {i : Instr} (h : takeAddr mk bs = .ok (i, rest)) :
    ∃ a, i = mk a ∧ bs = addrHi a :: addrLo a :: rest := by
  rw [takeAddr.eq_def] at h
  split at h <;> cases h
  exact ⟨_, rfl, by simp⟩

theorem takeByteAddr_eq_ok {mk : Byte → Addr → Instr} {bs rest : List Byte} {i : Instr}
    (h : takeByteAddr mk bs = .ok (i, rest)) : ∃ x a, i = mk x a ∧ bs = x :: addrHi a :: addrLo a :: rest := by
  rw [takeByteAddr.eq_def] at h
  split at h <;> cases h
  exact ⟨_, _, rfl, by simp⟩

theorem encode_append_of_decodeA {op : Byte} {bs rest : List Byte} {i : Instr} (h : decodeA op bs = .ok (i, rest)) :
    op :: bs = encode i ++ rest := by
  rw [decodeA] at h
  split_ifs at h with h0A h13 h16 h17
  · obtain ⟨x, a, rfl, rfl⟩ := takeByteAddr_eq_ok h
    rw [h0A]; rfl
  · obtain ⟨x, a, rfl, rfl⟩ := takeByteAddr_eq_ok h
    rw [h13]; rfl
  · obtain ⟨a, rfl, rfl⟩ := takeAddr_eq_ok h
    rw [h16]; rfl
  · obtain ⟨x, rfl, rfl⟩ := takeByte_eq_ok h
    rw [h17]; rfl

theorem encode_append_of_decodeB {op : Byte} {bs rest : List Byte} {i : Instr} (h : decodeB op bs = .ok (i, rest)) :
    op :: bs = encode i ++ rest := by
  rw [decodeB] at h
  split_ifs at h with h50 h51 h5A h5B h6E h70
  · obtain ⟨x, rfl, rfl⟩ := takeByte_eq_ok h
    rw [h50]; rfl
  · obtain ⟨a, rfl, rfl⟩ := takeAddr_eq_ok h
    rw [h51]; rfl
  · obtain ⟨x, rfl, rfl⟩ := takeByte_eq_ok h
    rw [h5A]; rfl
  · obtain ⟨x, rfl, rfl⟩ := takeByte_eq_ok h
    rw [h5B]; rfl
  · obtain ⟨a, rfl, rfl⟩ := takeAddr_eq_ok h
    rw [h6E]; rfl
  · obtain ⟨x, a, rfl, rfl⟩ := takeByteAddr_eq_ok h
    rw [h70]; rfl

/-- The bytes of an instruction decoded are its encoding and the bytes left over. -/
theorem encode_append_of_decode {v : Variant} {bytes rest : List Byte} {i : Instr}
    (h : decode v bytes = .ok (i, rest)) : bytes = encode i ++ rest := by
  cases bytes with
  | nil => cases h
  | cons op bs =>
    simp only [decode] at h
    split_ifs at h with hhalt
    · cases h
      cases v <;> exact congrArg (· :: rest) hhalt
    · cases v with
      | a => exact encode_append_of_decodeA h
      | b => exact encode_append_of_decodeB h

end Sys2Proof
end

section
/-!
What a step of a run stores (R47): nothing, or one byte at the address of a data write it is granted. From it, where memory may change,
which store redraws (R52, R55), and that a byte stored is fetched by the next step (R62).
-/

namespace Sys2Proof.Machine

open Sys2Proof

/-- From `s` to `t` no byte is stored and no redraw raised. -/
def StoresNothing (s t : State) : Prop := t.mem = s.mem ∧ redrawsOf t.outputs = redrawsOf s.outputs

/-- From `s` to `t` one byte is written at `a`, with the outputs of that write alone. -/
def StoresAt (a : Int) (s t : State) : Prop :=
  ∃ v, t.mem = (memWrite a v s).mem ∧ t.outputs = (memWrite a v s).outputs

theorem StoresNothing.raise (sig : Signal) (s : State) : StoresNothing s (raise sig s) :=
  ⟨rfl, by simp [redrawsOf]⟩

theorem StoresNothing.branchThenFall (cmpVal : Byte) (target : Int) (s : State) :
    StoresNothing s (branchThenFall cmpVal target s) := by
  have hbranch : StoresNothing s (branchEq cmpVal target s) := by
    rw [branchEq]
    split <;> exact ⟨rfl, rfl⟩
  rw [Machine.branchThenFall, beqFallThrough]
  split
  · exact hbranch
  · obtain ⟨hmem, hout⟩ := StoresNothing.raise .invalidOpcode (branchEq cmpVal target s)
    exact ⟨hmem.trans hbranch.1, hout.trans hbranch.2⟩

theorem StoresAt.write (a n : Int) (v : Byte) (s : State) : StoresAt a s (advance n (memWrite a v s)) :=
  ⟨v, rfl, rfl⟩

/-- The guard of a variant stores what its effect does, or nothing. -/
theorem onVariant_cases {v : Variant} {f : State → State} {s t : State} (h : onVariant v f s = .next t) :
    StoresNothing s t ∨ t = f s := by
  rw [onVariant, Host.Outcome.next.injEq] at h
  subst h
  split
  · exact .inr rfl
  · exact .inl (.raise _ s)

theorem onVariant_storesNothing {v : Variant} {f : State → State} {s t : State} (h : onVariant v f s = .next t)
    (hf : StoresNothing s (f s)) : StoresNothing s t :=
  (onVariant_cases h).elim id fun ht => ht ▸ hf

theorem onVariant_storesAt {v : Variant} {f : State → State} {s t : State} {a : Int} (h : onVariant v f s = .next t)
    (hf : StoresAt a s (f s)) : StoresNothing s t ∨ StoresAt a s t :=
  (onVariant_cases h).imp_right fun (ht : t = f s) => ht ▸ hf

theorem dataWrite_mem_writeGrants (a : Int) (s : State) : .dataWrite a ∈ writeGrants .dataWrite a s :=
  mem_writeGrants.mpr (.inl rfl)

/-- An instruction stores nothing, or one byte at the address of its data write. -/
theorem exec_stores {i : Instr} {s t : State} (h : exec i s = .next t) :
    StoresNothing s t ∨ ∃ a, .dataWrite a ∈ dataGrants i s ∧ StoresAt a s t := by
  cases i with
  | aAddm imm addr | aSubm imm addr =>
    refine (onVariant_storesAt h (.write (addrVal addr) 4 _ s)).imp_right fun ht => ⟨_, ?_, ht⟩
    exact List.mem_cons_of_mem _ (dataWrite_mem_writeGrants ..)
  | bStw addr =>
    refine (onVariant_storesAt h (.write (addrVal addr) 3 s.w s)).imp_right fun ht => ⟨_, ?_, ht⟩
    exact dataWrite_mem_writeGrants ..
  | aJmp addr | aBra off | bLdi imm | bAddi imm | bSubi imm | bJmp addr =>
    exact .inl (onVariant_storesNothing h ⟨rfl, rfl⟩)
  | bBeq cmpVal addr => exact .inl (onVariant_storesNothing h (.branchThenFall ..))
  | aHlt | bHlt =>
    obtain rfl := Host.Outcome.next.inj h
    exact .inl (.raise _ s)

/-- An iteration of the loop stores nothing, or one byte at the address of the data write of the instruction decoded. -/
theorem loopStep_stores {s t : State} (h : loopStep s = .next t) :
    StoresNothing s t ∨ ∃ i rest a, ¬ (memSize s : Int) ≤ s.pc ∧
      decode s.config.variant (fetchBytes s) = .ok (i, rest) ∧ .dataWrite a ∈ dataGrants i s ∧ StoresAt a s t := by
  rcases loopStep_cases s with ⟨-, hstep⟩ | ⟨hpc, i, rest, hdec, hstep⟩ | ⟨-, -, hstep⟩
  · obtain rfl := Host.Outcome.next.inj (hstep.symm.trans h)
    exact .inl (.raise _ s)
  · exact (exec_stores (hstep.symm.trans h)).imp_right fun ⟨a, ha⟩ => ⟨i, rest, a, hpc, hdec, ha⟩
  · obtain rfl := Host.Outcome.next.inj (hstep.symm.trans h)
    exact .inl (.raise _ s)

/-- A read sees no more of a state than its memory and variant. -/
theorem memRead_congr {s t : State} (hcfg : t.config = s.config) (hmem : t.mem = s.mem) (a : Int) :
    memRead a t = memRead a s := by
  have hr : InRange a t ↔ InRange a s := by rw [InRange, InRange, memSize, memSize, hcfg]
  rw [memRead, memRead, hmem, if_congr hr rfl rfl]

theorem allocated_of_step_running {s t : State} (hr : s.phase = .running) (h : step s = .next t) :
    s.allocated = true := by
  by_contra ha
  simp [step, hr, runningStep, ha] at h

/-- Settles O58: the one address a step may store at is the address of a data write granted. -/
theorem memoryChangesOnlyAtGrantedWrites : Obligations.MemoryChangesOnlyAtGrantedWrites := by
  intro s t a hr h hgrant
  have hcfg := (step_sameEngine h).config
  rcases loopStep_stores (loopStep_of_step_running hr h) with
    ⟨hmem, -⟩ | ⟨i, rest, b, hpc, hdec, hwrite, v, hmem, -⟩
  · exact memRead_congr hcfg hmem a
  · have hne : a ≠ b := by
      rintro rfl
      rw [stepGrants_running hr (allocated_of_step_running hr h), loopGrants_of_ok hpc hdec] at hgrant
      exact hgrant (List.mem_cons_of_mem _ (List.mem_append_right _ hwrite))
    calc memRead a t = memRead a (memWrite b v s) := memRead_congr (by rw [hcfg, memWrite_config]) hmem a
      _ = memRead a s := memRead_memWrite_other hne v s

/-- The address operand the decoder assembles is the one the rules speak of (R45, R74). -/
theorem addrVal_addr16At (a : Int) (s : State) : addrVal (addr16At a s) = operandAddr a s := by
  rw [addrVal, addr16At, addr16_toNat, operandAddr]
  push_cast
  rfl

theorem operandAddr_nonneg (a : Int) (s : State) : 0 ≤ operandAddr a s :=
  addrVal_addr16At a s ▸ (addrVal_range _).1

/-- A fetched instruction is executed (R98). -/
theorem step_of_fetches {s : State} {v : Variant} {op : Byte} (hf : s.Fetches v op) {i : Instr} {rest : List Byte}
    (hdec : decode v (fetchBytes s) = .ok (i, rest)) : step s = exec i s := by
  obtain ⟨rfl, ha, hr, hpc, -⟩ := hf
  rw [step_running hr ha, loopStep, if_neg hpc.2.not_ge, hdec]

/-- The step that fetches 0x51 stores W at the address operand (R131). -/
theorem step_of_fetches_stw {s : State} (hf : s.Fetches .b 0x51) :
    step s = .next (storeW (operandAddr (s.pc + 1) s) s) := by
  have ⟨hb, _, _, _, hop⟩ := hf
  have hdec : decode .b (fetchBytes s) = .ok (.bStw (addr16At (s.pc + 1) s), [memRead (s.pc + 3) s]) := by
    rw [fetchBytes, hop, addr16At, add_assoc]
    rfl
  rw [step_of_fetches hf hdec, ← addrVal_addr16At]
  exact onVariant_same hb

/-- An instruction is decoded inside memory only: elsewhere the byte 0 is fetched, which is no opcode (R42, R79). -/
theorem inRange_pc_of_decode {s : State} {i : Instr} {rest : List Byte}
    (hdec : decode s.config.variant (fetchBytes s) = .ok (i, rest)) : InRange s.pc s := by
  by_contra hout
  rw [fetchBytes, memRead_of_not_inRange hout, decode_zero] at hdec
  cases hdec

/-- The only instruction of VariantB with a data write is B.STW. -/
theorem eq_bStw_of_dataWrite {i : Instr} {s : State} {a : Int} (hv : i.variant = .b)
    (h : .dataWrite a ∈ dataGrants i s) : ∃ addr, i = .bStw addr ∧ a = addrVal addr := by
  cases i with
  | bStw addr =>
    rcases mem_writeGrants.mp h with ha | ⟨-, ha⟩ <;> cases ha
    exact ⟨addr, rfl, rfl⟩
  | aAddm | aSubm | aJmp | aBra | aHlt => cases hv
  | bLdi | bAddi | bSubi | bJmp | bBeq | bHlt => cases h

/-- Where the decoder reads B.STW, the opcode fetched is 0x51 and the address that of the operand bytes. -/
theorem fetched_of_decode_bStw {s : State} {v : Variant} {addr : Addr} {rest : List Byte}
    (hdec : decode v (fetchBytes s) = .ok (.bStw addr, rest)) :
    memRead s.pc s = 0x51 ∧ operandAddr (s.pc + 1) s = addrVal addr := by
  have hbytes := encode_append_of_decode hdec
  simp only [fetchBytes, encode, List.cons_append, List.cons.injEq] at hbytes
  obtain ⟨hop, hhi, hlo, -⟩ := hbytes
  rw [← addrVal_addr16At, addr16At, add_assoc]
  exact ⟨hop, by rw [hhi]; exact congrArg addrVal (hlo ▸ addr16_addrHi_addrLo addr)⟩

/-- An instruction that stores into the video region is a B.STW of an address below 1000. -/
theorem fetches_of_video_store {s : State} (ha : s.allocated = true) (hr : s.phase = .running)
    {i : Instr} {rest : List Byte} (hdec : decode s.config.variant (fetchBytes s) = .ok (i, rest)) {a : Int}
    (hwrite : .dataWrite a ∈ dataGrants i s) (hvideo : InVideo a s) : s.Fetches .b 0x51 ∧ operandAddr (s.pc + 1) s < 1000 := by
  obtain ⟨hb, -, hlt⟩ := inVideo_iff.mp hvideo
  obtain ⟨addr, rfl, rfl⟩ := eq_bStw_of_dataWrite ((decode_variant hdec).trans hb) hwrite
  obtain ⟨hop, haddr⟩ := fetched_of_decode_bStw hdec
  exact ⟨⟨hb, ha, hr, inRange_pc_of_decode hdec, hop⟩, haddr ▸ hlt⟩

/-- Settles O12: the redraw of B.STW's write, and that no other step stores into the video region. -/
theorem onlyVideoStoreRedrawsInRun : Obligations.OnlyVideoStoreRedrawsInRun := by
  refine fun s t hr h => ⟨fun ⟨hf, hlt⟩ => ?_, fun hnot => ?_⟩
  · have hvideo : InVideo (operandAddr (s.pc + 1) s) s := inVideo_iff.mpr ⟨hf.1, operandAddr_nonneg .., hlt⟩
    obtain rfl := Host.Outcome.next.inj ((step_of_fetches_stw hf).symm.trans h)
    exact ⟨_, by rw [storeW, advance_outputs, redrawsOf_memWrite, if_pos hvideo]⟩
  · rcases loopStep_stores (loopStep_of_step_running hr h) with
      ⟨-, hout⟩ | ⟨i, rest, a, -, hdec, hwrite, v, -, hout⟩
    · exact hout
    · have hvideo : ¬ InVideo a s := fun hv =>
        hnot (fetches_of_video_store (allocated_of_step_running hr h) hr hdec hwrite hv)
      rw [hout, memWrite_outputs_of_not_inVideo hvideo]

/-- Settles O16: the byte stored at `pc + 3` is read back as the next opcode. -/
theorem storedByteIsFetchedNext : Obligations.StoredByteIsFetchedNext := by
  intro s hwf hf htarget hlt
  refine ⟨_, step_of_fetches_stw hf, ?_⟩
  obtain ⟨hb, ha, hr, ⟨hlo, -⟩, -⟩ := hf
  have hin : InRange (s.pc + 3) s := ⟨by omega, by rw [memSize_b s hb]; exact hlt⟩
  rw [htarget, storeW]
  refine ⟨by simp [hb], by simp [ha], by simp [hr], ?_, ?_⟩
  · simpa only [InRange, advance_pc, memWrite_pc, advance_memSize, memWrite_memSize] using hin
  · simpa using memRead_memWrite_same hin hwf

end Sys2Proof.Machine
end

section
/-!
The display's screen (R54): rows of characters, each from the byte of the snapshot at its place.
-/

namespace Sys2Proof.Machine

open Sys2Proof

/-- The character in the screen's row `r`, column `c`. -/
theorem screen_getElem? (snap : List Byte) {r c : Nat} (hr : r < 25) (hc : c < 40) :
    ((screen snap)[r]?.bind fun row => row[c]?) = some (screenCell snap r c) := by
  simp [screen, Config.videoRows, Config.videoCols, hr, hc]

/-- The character of a cell whose byte the snapshot holds. -/
theorem screenCell_of_getElem? {snap : List Byte} {r c : Nat} {b : Byte} (h : snap[r * 40 + c]? = some b) :
    screenCell snap r c = glyph b := by
  rw [screenCell, List.getD_eq_getElem?_getD, cellIndex, Config.videoCols, h, Option.getD_some]

/-- Settles O60: the screen's rows and columns are the ranges it is mapped over. -/
theorem screenIsTwentyFiveRowsOfForty : Obligations.ScreenIsTwentyFiveRowsOfForty := by
  refine fun snap => ⟨by simp [screen, Config.videoRows], fun row hrow => ?_, fun r c b hr hc hb => ?_⟩
  · obtain ⟨r, -, rfl⟩ := List.mem_map.mp hrow
    simp [Config.videoCols]
  · rw [screen_getElem? snap hr hc, screenCell_of_getElem? hb]
    rfl

end Sys2Proof.Machine
end

section
/-!
Decoder and encoder as inverses (R71, R74, R76, R77), and the opcode maps by the byte at the head (R76 to R79).
-/

namespace Sys2Proof

theorem takeAddr_encoded (mk : Addr → Instr) (a : Addr) (rest : List Byte) :
    takeAddr mk (addrHi a :: addrLo a :: rest) = .ok (mk a, rest) := by
  rw [takeAddr, addr16_addrHi_addrLo]

theorem takeByteAddr_encoded (mk : Byte → Addr → Instr) (x : Byte) (a : Addr) (rest : List Byte) :
    takeByteAddr mk (x :: addrHi a :: addrLo a :: rest) = .ok (mk x a, rest) := by
  rw [takeByteAddr, addr16_addrHi_addrLo]

/-- The decoder of an instruction's own variant reads its encoding back. -/
theorem decode_encode_append (i : Instr) (rest : List Byte) : decode i.variant (encode i ++ rest) = .ok (i, rest) := by
  cases i with
  | aAddm imm addr | aSubm imm addr | bBeq imm addr => exact takeByteAddr_encoded _ imm addr rest
  | aJmp addr | bStw addr | bJmp addr => exact takeAddr_encoded _ addr rest
  | aBra | bLdi | bAddi | bSubi | aHlt | bHlt => rfl

/-- Settles O17: each format's operand bytes reassemble to the operand encoded. -/
theorem decodeInvertsEncode : Obligations.DecodeInvertsEncode := by
  rintro v i rest rfl
  exact decode_encode_append i rest

/-- Settles O18: what is decoded belongs to the variant, and was read from its encoding. -/
theorem encodeInvertsDecode : Obligations.EncodeInvertsDecode :=
  fun _ _ _ _ h => ⟨decode_variant h, encode_append_of_decode h⟩

open Machine (opcodesOf)

/-- An opcode of the map is decoded, whatever three operand bytes follow it. -/
theorem decode_of_mem_opcodesOf {v : Variant} {op : Byte} (h : op ∈ opcodesOf v) (b1 b2 b3 : Byte) (rest : List Byte) :
    ∃ i r, decode v (op :: b1 :: b2 :: b3 :: rest) = .ok (i, r) := by
  cases v with
  | a =>
    simp only [opcodesOf, List.mem_cons, List.not_mem_nil, or_false] at h
    rcases h with rfl | rfl | rfl | rfl | rfl <;> exact ⟨_, _, rfl⟩
  | b =>
    simp only [opcodesOf, List.mem_cons, List.not_mem_nil, or_false] at h
    rcases h with rfl | rfl | rfl | rfl | rfl | rfl | rfl <;> exact ⟨_, _, rfl⟩

/-- A byte outside the map is rejected by name, whatever follows it (R79). -/
theorem decode_of_not_mem_opcodesOf {v : Variant} {op : Byte} (h : op ∉ opcodesOf v) (bs : List Byte) :
    decode v (op :: bs) = .error (.invalidOpcode op) := by
  cases v with
  | a =>
    simp only [opcodesOf, List.mem_cons, List.not_mem_nil, or_false, not_or] at h
    simp only [decode, decodeA, haltOpcode, h, if_false]
  | b =>
    simp only [opcodesOf, List.mem_cons, List.not_mem_nil, or_false, not_or] at h
    simp only [decode, decodeB, haltOpcode, h, if_false]

theorem mem_opcodesOf_of_decode {v : Variant} {op : Byte} {bs rest : List Byte} {i : Instr}
    (h : decode v (op :: bs) = .ok (i, rest)) : op ∈ opcodesOf v := by
  by_contra hop
  rw [decode_of_not_mem_opcodesOf hop] at h
  cases h

/-- Settles O19: of the decoder's two answers the map picks one. -/
theorem opcodesOutsideTheMapAreRejected : Obligations.OpcodesOutsideTheMapAreRejected := by
  intro v op b1 b2 b3 rest
  refine ⟨⟨fun ⟨i, r, h⟩ => mem_opcodesOf_of_decode h, fun h => decode_of_mem_opcodesOf h b1 b2 b3 rest⟩,
    fun h hop => ?_, fun h => decode_of_not_mem_opcodesOf h _⟩
  obtain ⟨i, r, hok⟩ := decode_of_mem_opcodesOf hop b1 b2 b3 rest
  rw [hok] at h
  cases h

theorem eq_haltOpcode_of_mem_both : ∀ op ∈ opcodesOf .a, op ∈ opcodesOf .b → op = 0xFF := by decide

/-- Settles O20: an opcode decoded in both variants is in both maps. -/
theorem opcodeMapsShareOnlyHalt : Obligations.OpcodeMapsShareOnlyHalt :=
  fun op _ _ _ _ _ _ ha hb => eq_haltOpcode_of_mem_both op (mem_opcodesOf_of_decode ha) (mem_opcodesOf_of_decode hb)

/-- Settles O21: each is a closed run of the decoder. -/
theorem writtenOutWordsDecode : Obligations.WrittenOutWordsDecode := by
  unfold Obligations.WrittenOutWordsDecode
  decide

/-- The halt sentinel is decoded in both variants, before the map is asked (R99). -/
theorem decode_halt (v : Variant) (bs : List Byte) : decode v (0xFF :: bs) = .ok (haltOf v, bs) := rfl

theorem encode_haltOf (v : Variant) : encode (haltOf v) = [0xFF] := by
  cases v <;> rfl

theorem mem_opcodesOf_of_encode {i : Instr} {op : Byte} {bs : List Byte} (h : encode i = op :: bs) :
    op ∈ opcodesOf i.variant := by
  have hdec := decode_encode_append i []
  rw [h] at hdec
  exact mem_opcodesOf_of_decode hdec

/-- Only a halt is encoded with the halt sentinel. -/
theorem eq_haltOf_of_encode {i : Instr} {bs : List Byte} (h : encode i = 0xFF :: bs) : i = haltOf i.variant := by
  have hdec := decode_encode_append i []
  rw [h, List.cons_append, decode_halt] at hdec
  exact (congrArg Prod.fst (Except.ok.inj hdec)).symm

end Sys2Proof
end

section
/-!
What `exec` does with an instruction by its opcode byte, on an engine of either variant (R78, R79, R99; log 18).
-/

namespace Sys2Proof.Machine

open Sys2Proof

/-- A halt ends the run with `Halted` on either variant. -/
theorem exec_haltOf (v : Variant) (s : State) : exec (haltOf v) s = .next (raise .halted s) := by
  cases v <;> rfl

/-- An instruction of the other variant that is no halt ends the run with `InvalidOpcode`. -/
theorem exec_of_variant_ne {i : Instr} {s : State} (hv : s.config.variant ≠ i.variant) (hi : i ≠ haltOf i.variant) :
    exec i s = .next (raise .invalidOpcode s) := by
  cases i with
  | aHlt | bHlt => exact absurd rfl hi
  | aAddm | aSubm | aJmp | aBra | bLdi | bStw | bAddi | bSubi | bJmp | bBeq => exact onVariant_other hv

/-- Settles O45: a byte outside the engine's map is that of an instruction of the other variant that is no halt. -/
theorem otherVariantsInstructionIsInvalid : Obligations.OtherVariantsInstructionIsInvalid := by
  refine fun i s op rest h => ⟨fun hop => ?_, fun hop => ?_⟩
  · have hv : s.config.variant ≠ i.variant := fun hv => hop (hv ▸ mem_opcodesOf_of_encode h)
    have hi : i ≠ haltOf i.variant := fun hi => by
      rw [hi, encode_haltOf] at h
      rw [← (List.cons.inj h).1] at hop
      exact hop (mem_opcodesOf_of_decode (decode_halt _ []))
    exact exec_of_variant_ne hv hi
  · subst hop
    rw [eq_haltOf_of_encode h]
    exact exec_haltOf _ s

end Sys2Proof.Machine
end

section
/-!
Operand bytes beyond the end of memory are 0 (R81): the bytes fetched there, and with them each instruction form in memory's last bytes.
-/

namespace Sys2Proof.Machine

open Sys2Proof

theorem memRead_of_memSize_le {a : Int} {s : State} (h : (memSize s : Int) ≤ a) : memRead a s = 0 :=
  memRead_of_not_inRange fun hr => hr.2.not_ge h

/-- `n` bytes before the end of memory the fetch reads those `n` bytes and then zeros. -/
theorem fetchBytes_of_pc_add {s : State} {n : Nat} (h1 : 1 ≤ n) (h4 : n ≤ 4) (hpc : s.pc + n = memSize s) :
    fetchBytes s = ((List.range n).map fun k : Nat => memRead (s.pc + k) s) ++ List.replicate (4 - n) 0 := by
  have hout (k : Int) (hk : n ≤ k) : memRead (s.pc + k) s = 0 := memRead_of_memSize_le (by omega)
  rw [fetchBytes]
  interval_cases n <;> simp [hout, List.range_succ]

/-- An instruction fetched `n` bytes before the end of memory is executed with zeros for the operand bytes it lacks. -/
theorem step_of_fetches_pc_add {s : State} {v : Variant} {op : Byte} (hf : s.Fetches v op) {n : Nat} (h1 : 1 ≤ n)
    (h4 : n ≤ 4) (hpc : s.pc + n = memSize s) {i : Instr} {rest : List Byte}
    (hdec : decode v (((List.range n).map fun k : Nat => memRead (s.pc + k) s) ++ List.replicate (4 - n) 0) =
      .ok (i, rest)) : step s = exec i s :=
  step_of_fetches hf (fetchBytes_of_pc_add h1 h4 hpc ▸ hdec)

/-- The opcode in the last byte: every operand is 0. -/
theorem step_of_fetches_last {s : State} {v : Variant} {op : Byte} (hf : s.Fetches v op) (hpc : s.pc + 1 = v.memSize)
    {i : Instr} {rest : List Byte} (hdec : decode v [op, 0, 0, 0] = .ok (i, rest)) : step s = exec i s := by
  have ⟨hv, _, _, _, hop⟩ := hf
  subst hv hop
  refine step_of_fetches_pc_add hf (n := 1) le_rfl (by omega) hpc (rest := rest) ?_
  simpa using hdec

/-- The opcode in the last byte but one: the last byte is the one operand byte read. -/
theorem step_of_fetches_second_last {s : State} {v : Variant} {op : Byte} (hf : s.Fetches v op)
    (hpc : s.pc + 2 = v.memSize) {i : Instr} {rest : List Byte}
    (hdec : decode v [op, memRead (s.pc + 1) s, 0, 0] = .ok (i, rest)) : step s = exec i s := by
  have ⟨hv, _, _, _, hop⟩ := hf
  subst hv hop
  refine step_of_fetches_pc_add hf (n := 2) (by omega) (by omega) hpc (rest := rest) ?_
  simpa [List.range_succ] using hdec

section
variable {s : State}

theorem exec_aAddm (ha : s.config.variant = .a) (imm : Byte) (addr : Addr) :
    exec (.aAddm imm addr) s =
      .next { memWrite (addrVal addr) (memRead (addrVal addr) s + imm) s with pc := s.pc + 4 } := by
  rw [← aluAdd_eq, ← memWrite_pc (addrVal addr) _ s]
  exact onVariant_same ha

theorem exec_aSubm (ha : s.config.variant = .a) (imm : Byte) (addr : Addr) :
    exec (.aSubm imm addr) s =
      .next { memWrite (addrVal addr) (memRead (addrVal addr) s - imm) s with pc := s.pc + 4 } := by
  rw [← aluSub_eq, ← memWrite_pc (addrVal addr) _ s]
  exact onVariant_same ha

theorem exec_aJmp (ha : s.config.variant = .a) (addr : Addr) :
    exec (.aJmp addr) s = .next { s with pc := addrVal addr } := onVariant_same ha

theorem exec_aBra (ha : s.config.variant = .a) (off : Byte) :
    exec (.aBra off) s = .next { s with pc := s.pc + sext8 off } := onVariant_same ha

theorem exec_bLdi (hb : s.config.variant = .b) (imm : Byte) :
    exec (.bLdi imm) s = .next { s with w := imm, pc := s.pc + 2 } := onVariant_same hb

theorem exec_bStw (hb : s.config.variant = .b) (addr : Addr) :
    exec (.bStw addr) s = .next { memWrite (addrVal addr) s.w s with pc := s.pc + 3 } := by
  rw [← memWrite_pc (addrVal addr) s.w s]
  exact onVariant_same hb

theorem exec_bAddi (hb : s.config.variant = .b) (imm : Byte) :
    exec (.bAddi imm) s = .next { s with w := s.w + imm, pc := s.pc + 2 } := by
  rw [← aluAdd_eq]
  exact onVariant_same hb

theorem exec_bSubi (hb : s.config.variant = .b) (imm : Byte) :
    exec (.bSubi imm) s = .next { s with w := s.w - imm, pc := s.pc + 2 } := by
  rw [← aluSub_eq]
  exact onVariant_same hb

theorem exec_bJmp (hb : s.config.variant = .b) (addr : Addr) :
    exec (.bJmp addr) s = .next { s with pc := addrVal addr } := onVariant_same hb

theorem branchEq_eq (cmpVal : Byte) (target : Int) :
    branchEq cmpVal target s = { s with pc := if s.w = cmpVal then target else s.pc + 4 } := by
  by_cases h : s.w = cmpVal
  · rw [branchEq, if_pos (by simp [aluEq, h]), if_pos h]; rfl
  · rw [branchEq, if_neg (by simp [aluEq, Ne.symm h]), if_neg h]; rfl

theorem exec_bBeq_fixed (hb : s.config.variant = .b) (hfixed : s.config.beqFixed = true) (cmpVal : Byte) (addr : Addr) :
    exec (.bBeq cmpVal addr) s = .next { s with pc := if s.w = cmpVal then addrVal addr else s.pc + 4 } := by
  refine (onVariant_same hb).trans ?_
  rw [branchThenFall, branchEq_eq, beqFallThrough, if_pos hfixed]

/-- The legacy fall-through raises after `pc` is written (R136, D5). -/
theorem exec_bBeq_legacy (hb : s.config.variant = .b) (hlegacy : s.config.beqFixed = false) (cmpVal : Byte)
    (addr : Addr) :
    exec (.bBeq cmpVal addr) s = .next { s with
      pc := if s.w = cmpVal then addrVal addr else s.pc + 4
      phase := .idle
      outputs := s.outputs ++ [.signal .invalidOpcode] } := by
  refine (onVariant_same hb).trans ?_
  rw [branchThenFall, branchEq_eq, beqFallThrough, if_neg (by simp [hlegacy])]
  rfl

end

@[simp] theorem addrVal_zero : addrVal 0#16 = 0 := rfl

/-- An address operand whose low byte is 0. -/
theorem addrVal_addr16_zero (hi : Byte) : addrVal (addr16 hi 0#8) = hi.toNat * 256 := by
  simp [addrVal, addr16_toNat]

/-- Settles O22: the zero-filled bytes decide which instruction is executed, and its operands. -/
theorem operandBytesBeyondEndReadZero : Obligations.OperandBytesBeyondEndReadZero := by
  refine fun s => ⟨fun a ha => memRead_of_memSize_le ha,
    fun v op n i rest hf h1 h4 hpc hdec => step_of_fetches_pc_add hf h1 h4 hpc hdec,
    fun hf hpc => ?_, fun hf hpc => ?_, fun hf hpc => ?_, fun hf hpc => ?_, fun hf hpc => ?_, fun hf hpc => ?_,
    fun hf hpc => ?_, fun hf hpc => ?_, fun hf hpc => ?_, fun hf hpc => ?_, fun hf hpc => ?_, fun hf hpc => ?_,
    fun hf hpc hfixed => ?_, fun hf hpc hlegacy => ?_⟩
  · simpa [hpc] using (step_of_fetches_second_last hf (congrArg (· + 2) hpc) rfl).trans (exec_aAddm hf.1 _ 0)
  · simpa [hpc] using (step_of_fetches_last hf (congrArg (· + 1) hpc) rfl).trans (exec_aAddm hf.1 0 0)
  · simpa [hpc] using (step_of_fetches_second_last hf (congrArg (· + 2) hpc) rfl).trans (exec_aSubm hf.1 _ 0)
  · simpa [hpc] using (step_of_fetches_last hf (congrArg (· + 1) hpc) rfl).trans (exec_aSubm hf.1 0 0)
  · exact (step_of_fetches_last hf (congrArg (· + 1) hpc) rfl).trans (exec_aJmp hf.1 0)
  · simpa [sext8] using (step_of_fetches_last hf (congrArg (· + 1) hpc) rfl).trans (exec_aBra hf.1 0)
  · simpa [hpc] using (step_of_fetches_last hf (congrArg (· + 1) hpc) rfl).trans (exec_bLdi hf.1 0)
  · simpa [hpc, addrVal_addr16_zero] using
      (step_of_fetches_second_last hf (congrArg (· + 2) hpc) rfl).trans (exec_bStw hf.1 (addr16 _ 0))
  · simpa [hpc] using (step_of_fetches_last hf (congrArg (· + 1) hpc) rfl).trans (exec_bStw hf.1 0)
  · simpa [hpc] using (step_of_fetches_last hf (congrArg (· + 1) hpc) rfl).trans (exec_bAddi hf.1 0)
  · simpa [hpc] using (step_of_fetches_last hf (congrArg (· + 1) hpc) rfl).trans (exec_bSubi hf.1 0)
  · exact (step_of_fetches_last hf (congrArg (· + 1) hpc) rfl).trans (exec_bJmp hf.1 0)
  · simpa [hpc] using (step_of_fetches_last hf (congrArg (· + 1) hpc) rfl).trans (exec_bBeq_fixed hf.1 hfixed 0 0)
  · simpa [hpc] using (step_of_fetches_last hf (congrArg (· + 1) hpc) rfl).trans (exec_bBeq_legacy hf.1 hlegacy 0 0)

end Sys2Proof.Machine
end

section
/-!
The signals of a run (R97 to R100, R150): an iteration of the loop goes on without one or ends the run with one, and but for the legacy
B.BEQ (R136) the signal is all it changes. A run resumed where such a signal left it meets that signal again (R161), and fuel
beyond a run's end is not used (R105).
-/

namespace Sys2Proof.Machine

open Sys2Proof

/-- An instruction of a run goes on and returns no signal, or ends the run and returns one. -/
theorem ExecStep.signals {s t : State} (h : ExecStep s t) :
    (t.phase = s.phase ∧ signalsOf t.outputs = signalsOf s.outputs) ∨
    (t.phase = .idle ∧ ∃ sig, signalsOf t.outputs = signalsOf s.outputs ++ [sig]) := by
  rcases h.effect with ⟨hphase, -, hout⟩ | ⟨hphase, a, v, -, hout⟩ | ⟨hidle, -, sig, hout⟩
  · exact .inl ⟨hphase, by rw [hout]⟩
  · exact .inl ⟨hphase, by rw [hout, signalsOf_memWrite]⟩
  · exact .inr ⟨hidle, sig, by rw [hout, signalsOf_append]; rfl⟩

/-- No host operation returns a signal; a restore does not because none of its lines does. -/
theorem hostOp_signals {op : HostOp} {s t : State} (h : hostOp op s = .next t) :
    signalsOf t.outputs = signalsOf s.outputs := by
  cases op with
  | deserializeState lines =>
    obtain ⟨u, code, rfl, hu⟩ := restoreFrom_induct (P := fun u => signalsOf u.outputs = signalsOf s.outputs)
      (fun _ _ hs => hs) (fun _ _ _ hs => hs) (fun _ _ _ hs => (signalsOf_memWrite ..).trans hs) h rfl
    simp [signalsOf, hu]
  | reset | fetchExecute | peek | poke | statusText | serializeState =>
    obtain rfl := Host.Outcome.next.inj h
    simp [signalsOf]

/-- Settles O8: in a run by what an iteration of the loop can do, between runs by the host's operation. -/
theorem runEndsWithExactlyOneSignal : Obligations.RunEndsWithExactlyOneSignal := by
  refine fun s t h => ⟨fun hr => ?_, fun hi => ?_⟩
  · exact hr ▸ (step_running_execStep hr h).signals
  · rcases step_idle_cases hi h with ⟨-, rfl⟩ | ⟨op, rest, -, -, hop⟩
    · rfl
    · exact (hostOp_signals hop :)

/-- Settles O9: every iteration of the loop answers a next state. -/
theorem runningStepAlwaysAnswers : Obligations.RunningStepAlwaysAnswers := by
  intro s hr ha
  obtain ⟨t, ht, -⟩ := loopStep_execStep s
  exact ⟨t, (step_running hr ha).trans ht⟩

/-- From `s` to `t` no signal is returned, or one is and it is the only change (D3). -/
def RaisesOnly (s t : State) : Prop := signalsOf t.outputs = signalsOf s.outputs ∨ ∃ sig, t = raise sig s

theorem onVariant_raisesOnly {v : Variant} {f : State → State} {s t : State} (h : onVariant v f s = .next t)
    (hf : signalsOf (f s).outputs = signalsOf s.outputs) : RaisesOnly s t := by
  rw [onVariant, Host.Outcome.next.injEq] at h
  subst h
  split
  · exact .inl hf
  · exact .inr ⟨_, rfl⟩

/-- B.BEQ alone can move `pc` and return a signal in one step (R136, D5). -/
theorem exec_raisesOnly {i : Instr} {s t : State} (hi : ∀ cmpVal addr, i ≠ .bBeq cmpVal addr)
    (h : exec i s = .next t) : RaisesOnly s t := by
  cases i with
  | aAddm | aSubm | bStw => exact onVariant_raisesOnly h (by simp [updateByte, storeW])
  | aJmp | aBra | bLdi | bAddi | bSubi | bJmp => exact onVariant_raisesOnly h rfl
  | bBeq cmpVal addr => exact absurd rfl (hi cmpVal addr)
  | aHlt | bHlt =>
    obtain rfl := Host.Outcome.next.inj h
    exact .inr ⟨_, rfl⟩

/-- Where the decoder reads B.BEQ, the engine is of VariantB and the opcode fetched is 0x70. -/
theorem fetched_of_decode_bBeq {s : State} {cmpVal : Byte} {addr : Addr} {rest : List Byte}
    (hdec : decode s.config.variant (fetchBytes s) = .ok (.bBeq cmpVal addr, rest)) :
    s.config.variant = .b ∧ memRead s.pc s = 0x70 :=
  ⟨(decode_variant hdec).symm, List.head_eq_of_cons_eq (encode_append_of_decode hdec)⟩

theorem step_raisesOnly {s t : State} (hr : s.phase = .running) (hf : ¬ s.Fetches .b 0x70) (h : step s = .next t) :
    RaisesOnly s t := by
  have hloop := loopStep_of_step_running hr h
  rcases loopStep_cases s with ⟨-, hstep⟩ | ⟨-, i, rest, hdec, hstep⟩ | ⟨-, -, hstep⟩
  · exact .inr ⟨_, Host.Outcome.next.inj (hloop.symm.trans hstep)⟩
  · refine exec_raisesOnly ?_ (hstep.symm.trans hloop)
    rintro cmpVal addr rfl
    obtain ⟨hb, hop⟩ := fetched_of_decode_bBeq hdec
    exact hf ⟨hb, allocated_of_step_running hr h, hr, inRange_pc_of_decode hdec, hop⟩
  · exact .inr ⟨_, Host.Outcome.next.inj (hloop.symm.trans hstep)⟩

/-- Where the history shows that a signal was returned, it is the one raised. -/
theorem RaisesOnly.eq_raise {s t : State} {sig : Signal} (h : RaisesOnly s t)
    (hout : t.outputs = s.outputs ++ [.signal sig]) : t = raise sig s := by
  rcases h with hnone | ⟨sig', rfl⟩
  · simp [hout, signalsOf] at hnone
  · obtain rfl : sig' = sig := by simpa using hout
    rfl

/-- Resuming a run at a signal puts the run back where it was, but for the history and the host's list (R161). -/
theorem beginRun_raise {s : State} (hr : s.phase = .running) (sig : Signal) (rest : List HostOp) :
    beginRun none { raise sig s with pending := rest } =
      { s with outputs := s.outputs ++ [.signal sig], pending := rest } := by
  simp [beginRun, raise, emit, hr]

/-- An iteration of the loop under another history and another list of the host's: the same outputs are appended. -/
theorem step_running_setOutputs_setPending {s t : State} {ev : List Output} (hr : s.phase = .running)
    (h : step s = .next t) (hev : t.outputs = s.outputs ++ ev) (o : List Output) (p : List HostOp) :
    step { s with outputs := o, pending := p } = .next { t with outputs := o ++ ev, pending := p } := by
  have hout := outputsAreNeverReadBack s o
  rw [h] at hout
  obtain ⟨ev', hev', hstep⟩ := hout
  obtain rfl := List.append_cancel_left (hev'.symm.trans hev)
  have hpend := hostHasNoMoveDuringRun { s with outputs := o } p hr
  rw [hstep] at hpend
  exact hpend.2

/-- Settles O54: the resumed run takes the step that ended it again, since neither the history nor the host's list decides it. -/
theorem endedRunRepeatsItsSignal : Obligations.EndedRunRepeatsItsSignal := by
  intro s t sig rest hr hf h hout hpend
  obtain rfl := (step_raisesOnly hr hf h).eq_raise hout
  have halloc : s.allocated = true := allocated_of_step_running hr h
  have hasks : (raise sig s).Asks (.fetchExecute none) rest := ⟨rfl, halloc, hpend⟩
  have hresume : step (raise sig s) = .next { s with outputs := s.outputs ++ [.signal sig], pending := rest } := by
    rw [step_of_asks hasks, hostOp, beginRun_raise hr]
  exact ⟨_, _, hresume, step_running_setOutputs_setPending hr h hout _ rest, rfl, rfl, rfl, rfl, rfl⟩

/-- A run ends under fuel with its first step, or with the run from the state that step leaves. -/
theorem runFuel_succ_eq_ended {n : Nat} {s t : State} :
    runFuel (n + 1) s = .ended t ↔
      ∃ u, step s = .next u ∧ (u.phase = .idle ∧ u = t ∨ u.phase = .running ∧ runFuel n u = .ended t) := by
  rw [runFuel]
  cases step s with
  | next u => cases hu : u.phase <;> simp [hu]
  | fault | refused => simp

/-- Settles O56, by induction on the steps allowed. -/
theorem moreFuelKeepsTheEnd : Obligations.MoreFuelKeepsTheEnd := by
  intro n k s t h
  induction n generalizing s with
  | zero => cases h
  | succ n ih =>
    rw [runFuel_succ_eq_ended] at h
    rw [Nat.add_right_comm, runFuel_succ_eq_ended]
    obtain ⟨u, hstep, hend⟩ := h
    exact ⟨u, hstep, hend.imp_right fun ⟨hrun, hrest⟩ => ⟨hrun, ih u hrest⟩⟩

/-- Settles O36: the bounds test at the size of either variant. -/
theorem fetchPastTheEndEndsTheRun : Obligations.FetchPastTheEndEndsTheRun := by
  intro s hr ha hpc
  rw [← memSize_eq] at hpc
  rw [step_running hr ha, loopStep, if_pos hpc]
  rfl

/-- Settles O38: past the bounds test the loop is `exec` of what the decoder reads. -/
theorem stepRunsTheDecodedInstruction : Obligations.StepRunsTheDecodedInstruction := by
  intro s i rest hr ha hpc hdec
  refine ⟨decode_variant hdec, ?_⟩
  rw [step_running hr ha, loopStep, if_neg hpc.not_ge, fetchBytes, hdec]

end Sys2Proof.Machine
end

section
/-!
The host's operations on an idle engine (R90 to R96, R183): what each changes, and that only `reset` has a meaning before the first one.
-/

namespace Sys2Proof.Machine

open Sys2Proof

/-- Settles O50, by the operation. -/
theorem hostChangesOnlyWhatItsOperationNames : Obligations.HostChangesOnlyWhatItsOperationNames := by
  intro s t op rest hasks h hreset hrestore
  rw [step_of_asks hasks] at h
  cases op with
  | reset => exact absurd rfl hreset
  | deserializeState lines => exact absurd rfl (hrestore lines)
  | fetchExecute start =>
    obtain rfl := Host.Outcome.next.inj h
    exact ⟨rfl, fun hstart => absurd rfl (hstart start), fun _ => rfl⟩
  | poke a v =>
    obtain rfl := Host.Outcome.next.inj h
    exact ⟨by simp, fun _ => by simp, fun hpoke => absurd rfl (hpoke a v)⟩
  | peek | statusText | serializeState =>
    obtain rfl := Host.Outcome.next.inj h
    exact ⟨rfl, fun _ => rfl, fun _ => rfl⟩

/-- Settles O46: the operation emits the bounds-checked read. -/
theorem peekReturnsTheByte : Obligations.PeekReturnsTheByte :=
  fun _ _ _ hasks => ⟨step_of_asks hasks, fun hout => memRead_of_not_inRange fun ⟨hlo, hhi⟩ => by omega⟩

/-- Settles O47: the operation is a write, whose cell is O14's and whose redraw is O15's. -/
theorem pokeWritesTheByte : Obligations.PokeWritesTheByte := by
  intro s a v rest hwf hasks
  have hstep : step s = .next ((memWrite a v s).asking rest) := by
    rw [step_of_asks hasks, ← memWrite_asking]
    rfl
  obtain ⟨hin, hout⟩ := writeSetsOneCellOrNothing s a v hwf
  obtain ⟨hredraw, hquiet⟩ := videoWriteRedrawsWithSnapshot s a v
  refine ⟨_, hstep, memWrite_pc .., memWrite_w .., memWrite_config .., (memWrite_phase ..).trans hasks.1, rfl,
    memWrite_allocated .., fun hlo hhi => ?_, fun b hb => memRead_memWrite_other hb v s, fun ho => ?_,
    fun hb hlo hhi => hredraw ⟨hb, hlo, hhi⟩, fun hno => hquiet ?_⟩
  · obtain ⟨hread, -⟩ := hin ⟨hlo, hhi⟩
    exact (hread a).trans (if_pos rfl)
  · rw [hout ho]
    exact ⟨rfl, rfl⟩
  · rintro ⟨hb, -, hlt⟩
    rcases hno with ha | hge
    · cases ha.symm.trans hb
    · omega

/-- Settles O48: the run begun, and the bounds test at 5000, past the end of either variant. -/
theorem fetchExecuteBeginsTheRun : Obligations.FetchExecuteBeginsTheRun := by
  intro s start rest hasks
  have hstep : step s = .next (beginRun start { s with pending := rest }) := step_of_asks hasks
  refine ⟨⟨_, hstep, by cases start <;> rfl⟩, ?_⟩
  rintro rfl
  refine ⟨_, _, hstep, fetchPastTheEndEndsTheRun _ rfl hasks.2.1 ?_, rfl, rfl, rfl⟩
  rw [beginRun_pc, Option.getD_some]
  split <;> decide

theorem isReset_iff {op : HostOp} : isReset op = true ↔ op = .reset := by
  cases op <;> simp [isReset]

/-- Settles O49: the guard of an idle engine without memory lets `reset` through and nothing else. -/
theorem operationsBeforeFirstResetAreRefused : Obligations.OperationsBeforeFirstResetAreRefused := by
  intro s op rest hi ha hpend
  refine ⟨fun hop => ?_, fun hop => ⟨resetEngine { s with pending := rest }, ?_, rfl⟩⟩
  · simp [step_idle hi, idleStep, hpend, ha, isReset_iff, hop]
  · simp [step_idle hi, idleStep, hpend, isReset_iff, hop, hostOp]

end Sys2Proof.Machine
end

section
/-!
VariantA's instructions (R120 to R124, R126): what `exec` does on every state of the variant, and what the step does that fetches the
opcode, by the operand bytes after it. With them the halt sentinel and the unknown opcode, which either variant answers alike (R79, R99).
-/

namespace Sys2Proof.Machine

open Sys2Proof

/-- From `s` to `t` the byte at `addr` becomes `v`, or nothing is stored where `addr` is outside VariantA's memory; `pc` passes over
the instruction; all else stays (R120, R121, R43). -/
def UpdatesByte (addr : Addr) (v : Byte) (s t : State) : Prop :=
  t.pc = s.pc + 4 ∧ t.w = s.w ∧ t.config = s.config ∧
    t.allocated = s.allocated ∧ t.phase = s.phase ∧ t.outputs = s.outputs ∧ t.pending = s.pending ∧
    (∀ b : Int, b ≠ addr.toNat → memRead b t = memRead b s) ∧
    (Memory.wf s.mem = true → addr.toNat < 1024 → memRead addr.toNat t = v) ∧
    (1024 ≤ addr.toNat → t.mem = s.mem)

theorem inRange_addrVal_iff {s : State} (ha : s.config.variant = .a) (addr : Addr) :
    InRange (addrVal addr) s ↔ addr.toNat < 1024 := by
  rw [InRange, memSize_a s ha, addrVal]
  omega

/-- The read-modify-write of VariantA is one write, which raises no redraw (R55), and the advance. -/
theorem updateByte_updatesByte {s : State} (ha : s.config.variant = .a) (f : Byte → Byte) (addr : Addr) :
    UpdatesByte addr (f (memRead addr.toNat s)) s (updateByte f (addrVal addr) s) := by
  have hquiet : ¬ InVideo (addrVal addr) s := fun hv => by cases ha.symm.trans hv.variant_b
  refine ⟨congrArg (· + 4) (memWrite_pc ..), memWrite_w .., memWrite_config .., memWrite_allocated .., memWrite_phase ..,
    memWrite_outputs_of_not_inVideo hquiet _, memWrite_pending .., fun b hb => memRead_memWrite_other hb _ s,
    fun hwf hlt => ?_, fun hge => ?_⟩
  · exact memRead_memWrite_same ((inRange_addrVal_iff ha addr).mpr hlt) hwf
  · rw [updateByte, advance_mem, memWrite_of_not_inRange ((inRange_addrVal_iff ha addr).not.mpr hge.not_gt)]

/-- Settles O39: both are a read-modify-write, with the sum and with the difference mod 256. -/
theorem memoryArithmeticCompletesWithFrame : Obligations.MemoryArithmeticCompletesWithFrame := by
  refine fun imm addr s ha => ⟨⟨_, onVariant_same ha, ?_⟩, ⟨_, onVariant_same ha, ?_⟩⟩
  · rw [← aluAdd_eq_mod]
    exact updateByte_updatesByte ha (aluAdd · imm) addr
  · rw [← aluSub_eq_mod]
    exact updateByte_updatesByte ha (aluSub · imm) addr

/-- Settles O40: on its variant each jump is its write to `pc`. -/
theorem jumpsCompleteAndChangeOnlyPc : Obligations.JumpsCompleteAndChangeOnlyPc :=
  fun _ => ⟨fun addr ha => exec_aJmp ha addr, fun off ha => exec_aBra ha off, fun addr hb => exec_bJmp hb addr⟩

/-- Settles O44: each is the halt of its variant. -/
theorem haltsCompleteAndOnlyEndTheRun : Obligations.HaltsCompleteAndOnlyEndTheRun :=
  fun s => ⟨fun _ => exec_haltOf .a s, fun _ => exec_haltOf .b s⟩

section
variable {s : State} {v : Variant} {op : Byte} (hf : s.Fetches v op)
include hf

/-- The bytes fetched begin with the opcode. -/
theorem fetchBytes_of_fetches :
    fetchBytes s = [op, memRead (s.pc + 1) s, memRead (s.pc + 2) s, memRead (s.pc + 3) s] := by
  obtain ⟨-, -, -, -, rfl⟩ := hf
  rfl

/-- An opcode of the forms `I` and `R` is executed with the byte after it (R71). -/
theorem step_of_fetches_byte {mk : Byte → Instr}
    (hdec : ∀ x b2 b3 : Byte, decode v [op, x, b2, b3] = .ok (mk x, [b2, b3])) :
    step s = exec (mk (memRead (s.pc + 1) s)) s :=
  step_of_fetches hf (fetchBytes_of_fetches hf ▸ hdec _ _ _)

/-- An opcode of the form `A` is executed with the address after it (R71). -/
theorem step_of_fetches_addr {mk : Addr → Instr}
    (hdec : ∀ hi lo b3 : Byte, decode v [op, hi, lo, b3] = .ok (mk (addr16 hi lo), [b3])) :
    step s = exec (mk (addr16At (s.pc + 1) s)) s := by
  refine step_of_fetches hf (rest := [memRead (s.pc + 3) s]) ?_
  rw [fetchBytes_of_fetches hf, hdec, addr16At, add_assoc]
  rfl

/-- An opcode of the forms `IA` and `CA` is executed with the byte after it and the address after that (R71). -/
theorem step_of_fetches_byteAddr {mk : Byte → Addr → Instr}
    (hdec : ∀ x hi lo : Byte, decode v [op, x, hi, lo] = .ok (mk x (addr16 hi lo), [])) :
    step s = exec (mk (memRead (s.pc + 1) s) (addr16At (s.pc + 2) s)) s := by
  refine step_of_fetches hf (rest := []) ?_
  rw [fetchBytes_of_fetches hf, hdec, addr16At, add_assoc]
  rfl

end

/-- Settles O23: the sum written is the one mod 256. -/
theorem addmStepAddsToMemory : Obligations.AddmStepAddsToMemory := by
  intro s hf
  rw [step_of_fetches_byteAddr hf fun _ _ _ => rfl, exec_aAddm hf.1, addrVal_addr16At, ← aluAdd_eq, aluAdd_eq_mod]

/-- Settles O24: the difference written is the one mod 256. -/
theorem submStepSubtractsFromMemory : Obligations.SubmStepSubtractsFromMemory := by
  intro s hf
  rw [step_of_fetches_byteAddr hf fun _ _ _ => rfl, exec_aSubm hf.1, addrVal_addr16At, ← aluSub_eq, aluSub_eq_mod]

/-- Settles O25: the target is the address operand itself. -/
theorem aJmpStepJumps : Obligations.AJmpStepJumps := by
  intro s hf
  rw [step_of_fetches_addr hf fun _ _ _ => rfl, exec_aJmp hf.1, addrVal_addr16At]

/-- Settles O26: the offset added is `sext8` of the operand byte. -/
theorem braStepBranchesFromItsOwnAddress : Obligations.BraStepBranchesFromItsOwnAddress :=
  fun _ hf => (step_of_fetches_byte hf fun _ _ _ => rfl).trans (exec_aBra hf.1 _)

/-- Settles O27: 0xFF is decoded as the variant's halt before the map is asked. -/
theorem haltSentinelEndsTheRun : Obligations.HaltSentinelEndsTheRun := fun s v hf =>
  (step_of_fetches hf (fetchBytes_of_fetches hf ▸ decode_halt v _)).trans (exec_haltOf v s)

/-- Settles O35: in range the loop reaches the decoder, which rejects the byte. -/
theorem unknownOpcodeEndsTheRun : Obligations.UnknownOpcodeEndsTheRun := by
  intro s v op hf hop
  have hbytes := fetchBytes_of_fetches hf
  obtain ⟨rfl, ha, hr, hpc, -⟩ := hf
  rw [step_running hr ha, loopStep, if_neg hpc.2.not_ge, hbytes, decode_of_not_mem_opcodesOf hop]
  rfl

end Sys2Proof.Machine
end

section
/-!
VariantB's instructions (R130 to R136, R139): what `exec` does on every state of the variant, and from it what the step does that fetches
the opcode. Last, the legacy B.BEQ against the fixed one (R161, D5).
-/

namespace Sys2Proof.Machine

open Sys2Proof

/-- Settles O41: the sum and the difference loaded are those mod 256. -/
theorem registerInstructionsCompleteAndChangeOnlyWAndPc : Obligations.RegisterInstructionsCompleteAndChangeOnlyWAndPc := by
  intro imm s hb
  rw [← aluAdd_eq_mod, ← aluSub_eq_mod]
  exact ⟨onVariant_same hb, onVariant_same hb, onVariant_same hb⟩

/-- Settles O28: the byte loaded is the operand byte. -/
theorem ldiStepLoadsW : Obligations.LdiStepLoadsW :=
  fun _ hf => (step_of_fetches_byte hf fun _ _ _ => rfl).trans (exec_bLdi hf.1 _)

/-- Settles O30: the operand byte is the immediate of the sum in O41. -/
theorem addiStepAddsToW : Obligations.AddiStepAddsToW := by
  intro s hf
  obtain ⟨-, hadd, -⟩ := registerInstructionsCompleteAndChangeOnlyWAndPc (memRead (s.pc + 1) s) s hf.1
  exact (step_of_fetches_byte hf fun _ _ _ => rfl).trans hadd

/-- Settles O31: the operand byte is the immediate of the difference in O41. -/
theorem subiStepSubtractsFromW : Obligations.SubiStepSubtractsFromW := by
  intro s hf
  obtain ⟨-, -, hsub⟩ := registerInstructionsCompleteAndChangeOnlyWAndPc (memRead (s.pc + 1) s) s hf.1
  exact (step_of_fetches_byte hf fun _ _ _ => rfl).trans hsub

/-- Settles O32: the target is the address operand itself. -/
theorem bJmpStepJumps : Obligations.BJmpStepJumps := by
  intro s hf
  rw [step_of_fetches_addr hf fun _ _ _ => rfl, exec_bJmp hf.1, addrVal_addr16At]

theorem inRange_addrVal_iff_of_variant_b {s : State} (hb : s.config.variant = .b) (addr : Addr) :
    InRange (addrVal addr) s ↔ addr.toNat < 1536 := by
  rw [InRange, memSize_b s hb, addrVal]
  omega

/-- Settles O42: the store is one write of W, whose redraw is O15's, and the advance. -/
theorem storeCompletesWithFrame : Obligations.StoreCompletesWithFrame := by
  intro addr s hb
  have hin := inRange_addrVal_iff_of_variant_b hb addr
  obtain ⟨hredraw, hquiet⟩ := videoWriteRedrawsWithSnapshot s (addrVal addr) s.w
  refine ⟨storeW (addrVal addr) s, onVariant_same hb, congrArg (· + 3) (memWrite_pc ..), memWrite_w .., memWrite_config ..,
    memWrite_allocated .., memWrite_phase .., memWrite_pending .., fun b hne => memRead_memWrite_other hne s.w s,
    fun hwf hlt => memRead_memWrite_same (hin.mpr hlt) hwf, fun hge => ?_,
    fun hlt => hredraw ⟨hb, Int.natCast_nonneg _, Int.ofNat_lt.mpr hlt⟩,
    fun hge => hquiet fun ⟨_, _, hlt⟩ => hge.not_gt (Int.ofNat_lt.mp hlt)⟩
  rw [storeW, advance_mem, memWrite_of_not_inRange (hin.not.mpr hge.not_gt)]

/-- Settles O29: the fetched instruction is the B.STW of O42 whose address is that of the operand bytes. -/
theorem stwStepStoresW : Obligations.StwStepStoresW := by
  intro s hwf hf
  obtain ⟨t, hexec, hpc, hw, hcfg, halloc, hphase, hpend, hother, hsame, hout, hredraw, hquiet⟩ :=
    storeCompletesWithFrame (addr16At (s.pc + 1) s) s hf.1
  have hstep : step s = .next t := (step_of_fetches_addr hf fun _ _ _ => rfl).trans hexec
  rw [← addrVal_addr16At, addrVal]
  refine ⟨t, hstep, hpc, hw, hphase, hcfg, halloc, hpend, fun hlt => hsame hwf (by omega), fun hge => hout (by omega),
    hother, fun hlt => ?_, fun hge => hquiet (by omega)⟩
  obtain ⟨snap, hsnap, -⟩ := hredraw (by omega)
  exact ⟨snap, hsnap⟩

/-- Settles O43: the branch decision, and the fall-through by BEQ_FIXED. -/
theorem branchEqualCompletesWithFrame : Obligations.BranchEqualCompletesWithFrame := by
  intro cmpVal addr s hb
  simp only [eq_comm (a := cmpVal)]
  exact ⟨fun hlegacy => exec_bBeq_legacy hb hlegacy cmpVal addr, fun hfixed => exec_bBeq_fixed hb hfixed cmpVal addr⟩

/-- Settles O34: the fetched instruction is the B.BEQ of O43 with the operand bytes. -/
theorem beqStepFallsIntoDefaultArm : Obligations.BeqStepFallsIntoDefaultArm := by
  intro s hf
  rw [step_of_fetches_byteAddr hf fun _ _ _ => rfl, ← addrVal_addr16At]
  exact branchEqualCompletesWithFrame _ _ s hf.1

/-- Settles O33: O34's two next states, one for each value of BEQ_FIXED, agree on what the branch decides. -/
theorem beqStepDecidesTheBranch : Obligations.BeqStepDecidesTheBranch := by
  intro s hf
  obtain ⟨hlegacy, hfixed⟩ := beqStepFallsIntoDefaultArm s hf
  cases hbeq : s.config.beqFixed with
  | false => exact ⟨_, hlegacy hbeq, rfl, rfl, rfl, by simp [redrawsOf], rfl, rfl, rfl⟩
  | true => exact ⟨_, hfixed hbeq, rfl, rfl, rfl, rfl, rfl, rfl, rfl⟩

/-- A host that calls fetchExecute without start puts the idle engine back into a run where it stopped (R93, R161). -/
theorem step_of_asks_resume {s : State} {rest : List HostOp} (h : s.Asks (.fetchExecute none) rest) :
    step s = .next { s with phase := .running, pending := rest } := step_of_asks h

/-- Settles O55: the legacy branch has written `pc` before it raises (O34), and the resumption leaves `pc`, W and memory. -/
theorem resumedLegacyBranchEqualsFixedBranch : Obligations.ResumedLegacyBranchEqualsFixedBranch := by
  intro s rest hf hbeq hpend
  have hf' : State.Fetches { s with config := { s.config with beqFixed := true } } .b 0x70 := hf
  obtain ⟨hlegacy, -⟩ := beqStepFallsIntoDefaultArm s hf
  obtain ⟨-, hfixed⟩ := beqStepFallsIntoDefaultArm _ hf'
  obtain ⟨-, halloc, hrun, -⟩ := hf
  exact ⟨_, _, _, hlegacy hbeq, step_of_asks_resume ⟨rfl, halloc, hpend⟩, hfixed rfl, rfl, hrun, rfl, rfl, rfl⟩

end Sys2Proof.Machine
end

section
/-!
The host's reset (R180 to R182): the step of an idle engine asked to reset, whether or not it has memory yet.
-/

namespace Sys2Proof.Machine

open Sys2Proof

/-- The guard of an idle engine lets `reset` through before memory is allocated as well as after (R183). -/
theorem step_of_pending_reset {s : State} {rest : List HostOp} (hi : s.phase = .idle) (hpend : s.pending = .reset :: rest) :
    step s = .next (resetEngine { s with pending := rest }) := by
  rw [step_idle hi, idleStep, hpend]
  exact if_pos (Bool.or_true s.allocated)

/-- Settles O2: the reset keeps the outputs, the phase and the configuration, and clears the rest. -/
theorem hostResetClearsTheEngine : Obligations.HostResetClearsTheEngine := fun _ _ hi hpend =>
  ⟨_, step_of_pending_reset hi hpend, resetEngine_allocated _, (memRead_resetEngine · _), resetEngine_pc _, resetEngine_w _,
    resetEngine_config _, (resetEngine_phase _).trans hi, resetEngine_pending _, resetEngine_outputs _⟩

/-- A second reset finds every field it writes at its reset value, so what is left of it is its leaving the list (R181). -/
theorem resetEngine_resetEngine_pending (s : State) (rest : List HostOp) :
    resetEngine { resetEngine s with pending := rest } = { resetEngine s with pending := rest } := rfl

/-- Settles O3: the reset engine is idle with the second reset next, which finds nothing to clear. -/
theorem resetTwiceIsResetOnceWithoutRedraw : Obligations.ResetTwiceIsResetOnceWithoutRedraw := by
  intro s rest hi hpend
  have hsecond := step_of_pending_reset (s := resetEngine { s with pending := .reset :: rest }) hi rfl
  rw [resetEngine_resetEngine_pending] at hsecond
  exact ⟨_, step_of_pending_reset hi hpend, hsecond, resetEngine_outputs _⟩

end Sys2Proof.Machine
end
